-- ==== Sys2Proof/Word.lean ====
section
/-! DEFINITION. The widths of the block (spec/00_scope.md R4, R7; spec/30_encoding.md R61): bytes, words,
command words, the alphabet set, and the two fixed-length byte sequences the solvers deliver. -/

namespace Sys2Proof

/-- A byte: an unsigned 8-bit value (R7). -/
abbrev Byte := BitVec 8

/-- The accumulator, a table entry, a target, the read-data register: 32 bits (R4, R20). -/
abbrev Word := BitVec 32

/-- One command word: 64 bits (R61). -/
abbrev Command := BitVec 64

/-- A set of byte values held as 256 bits: bit j says that byte value j is a member (R26). -/
abbrev Alphabet := BitVec 256

/-- A sequence of exactly four bytes, first byte first: four table indices (R101) or a binary patch (R102). -/
structure Quad where
  b0 : Byte
  b1 : Byte
  b2 : Byte
  b3 : Byte
deriving DecidableEq, Repr

/-- The bytes of a quad in sequence order. -/
def Quad.toList (q : Quad) : List Byte := [q.b0, q.b1, q.b2, q.b3]

/-- The six bytes of the register PATCH, `PATCH[0]` first (R25). -/
structure Patch where
  b0 : Byte
  b1 : Byte
  b2 : Byte
  b3 : Byte
  b4 : Byte
  b5 : Byte
deriving DecidableEq, Repr

/-- `PATCH[0..5]` in sequence order. -/
def Patch.toList (p : Patch) : List Byte := [p.b0, p.b1, p.b2, p.b3, p.b4, p.b5]

/-- Six zero bytes: what block reset and a failed SOLVEA leave in PATCH (R25, R124). -/
def Patch.zero : Patch := ⟨0, 0, 0, 0, 0, 0⟩

end Sys2Proof
end

