-- ==== Sys2Proof/Syntax.lean ====
section
/-! DEFINITION. The thirteen commands (spec/30_encoding.md R63): one constructor per row of spec/opcode_table.json.
Each operand has the width of the bits that vary in the row's encoding. -/

namespace Sys2Proof

/-- The command set (R63). `imm` is the field IMM, `n` the bits of the field N that the row lets vary. -/
inductive Instr where
  /-- NOP (R150). -/
  | nop
  /-- SET imm (R81): load the accumulator. -/
  | set (imm : Word)
  /-- APPEND n, imm (R82): extend the accumulator by the first `n` bytes of `imm`. -/
  | append (n : Byte) (imm : Word)
  /-- GETACC (R83). -/
  | getacc
  /-- SOLVEB imm (R104): binary forcing to the target `imm`. -/
  | solveb (imm : Word)
  /-- SOLVEA imm (R127): printable forcing to the target `imm`. -/
  | solvea (imm : Word)
  /-- APPLYP (R153): append the stored patch. -/
  | applyp
  /-- GETPATCH n (R151): read patch word `n`. -/
  | getpatch (n : BitVec 1)
  /-- GETSTAT (R152). -/
  | getstat
  /-- SETALPHA n, imm (R128): write alphabet word `n`. -/
  | setalpha (n : BitVec 3) (imm : Word)
  /-- GETALPHA n (R129): read alphabet word `n`. -/
  | getalpha (n : BitVec 3)
  /-- DEFALPHA (R130). -/
  | defalpha
  /-- TABLE n (R84): read lookup-table entry `n`. -/
  | table (n : Byte)
deriving DecidableEq, Repr

/-- The thirteen legal opcodes by name (R63). -/
inductive Opcode where
  | nop | set | append | getacc | solveb | solvea | applyp | getpatch | getstat | setalpha | getalpha | defalpha | table
deriving DecidableEq, Repr

end Sys2Proof
end

