-- ==== Sys2Proof/WellFormed.lean ====
section
/-! DEFINITION. When a command term is one that some legal word stands for. The operand types already hold every
field width; what is left are the two constraints of the APPEND row of spec/opcode_table.json (R63). -/

namespace Sys2Proof

/-- The constraint "N <= 4" of the APPEND row. -/
def Instr.appendCountOk (n : Byte) : Bool := n.toNat ≤ 4

/-- The constraint "IMM[31:8*N] = 0 (all of IMM when N = 0)" of the APPEND row. -/
def Instr.appendDataOk (n : Byte) (imm : Word) : Bool := imm >>> (8 * n.toNat) = 0#32

/-- A command term that a legal command word stands for (R65). -/
def Instr.wf : Instr → Bool
  | .nop => true
  | .set _ => true
  | .append n imm => Instr.appendCountOk n && Instr.appendDataOk n imm
  | .getacc => true
  | .solveb _ => true
  | .solvea _ => true
  | .applyp => true
  | .getpatch _ => true
  | .getstat => true
  | .setalpha _ _ => true
  | .getalpha _ => true
  | .defalpha => true
  | .table _ => true

end Sys2Proof
end

