-- ==== Sys2Proof/Decode.lean ====
section
/-! DEFINITION. The one command format (spec/30_encoding.md R61), the decoder with its four checks (R64), the encoder,
and the opcode table's rows as data (R65, spec/opcode_table.json). -/

namespace Sys2Proof

/-- `OPC = cmd[63:56]` (R61). -/
def cmdOpc (c : Command) : Byte := c.extractLsb' 56 8

/-- `N = cmd[55:48]` (R61). -/
def cmdN (c : Command) : Byte := c.extractLsb' 48 8

/-- `RSV = cmd[47:32]` (R61). -/
def cmdRsv (c : Command) : BitVec 16 := c.extractLsb' 32 16

/-- `IMM = cmd[31:0]` (R61). -/
def cmdImm (c : Command) : Word := c.extractLsb' 0 32

/-- A command word from its four fields (R61). -/
def mkCommand (opc n : Byte) (rsv : BitVec 16) (imm : Word) : Command := opc ++ n ++ rsv ++ imm

/-- The opcode's number (R63). -/
def Opcode.value : Opcode → Byte
  | .nop => 0x00#8
  | .set => 0x01#8
  | .append => 0x02#8
  | .getacc => 0x03#8
  | .solveb => 0x04#8
  | .solvea => 0x05#8
  | .applyp => 0x06#8
  | .getpatch => 0x07#8
  | .getstat => 0x08#8
  | .setalpha => 0x09#8
  | .getalpha => 0x0A#8
  | .defalpha => 0x0B#8
  | .table => 0x0C#8

/-- The opcode with a given number; none for 0x0D to 0xFF, which are illegal (R63, R171). -/
def opcodeOf (v : Byte) : Option Opcode :=
  match v.toNat with
  | 0x00 => some .nop
  | 0x01 => some .set
  | 0x02 => some .append
  | 0x03 => some .getacc
  | 0x04 => some .solveb
  | 0x05 => some .solvea
  | 0x06 => some .applyp
  | 0x07 => some .getpatch
  | 0x08 => some .getstat
  | 0x09 => some .setalpha
  | 0x0A => some .getalpha
  | 0x0B => some .defalpha
  | 0x0C => some .table
  | _ => none

/-- `legal_N(OPC)` (R64). -/
def legalN : Opcode → Byte → Bool
  | .append, n => n.toNat ≤ 4
  | .getpatch, n => n.toNat ≤ 1
  | .setalpha, n => n.toNat ≤ 7
  | .getalpha, n => n.toNat ≤ 7
  | .table, _ => true
  | .nop, n => n = 0#8
  | .set, n => n = 0#8
  | .getacc, n => n = 0#8
  | .solveb, n => n = 0#8
  | .solvea, n => n = 0#8
  | .applyp, n => n = 0#8
  | .getstat, n => n = 0#8
  | .defalpha, n => n = 0#8

/-- `imm_used_mask(OPC, N)` (R64); the APPEND mask is `2^(8N) - 1`. -/
def immUsedMask : Opcode → Byte → Word
  | .set, _ => 0xFFFFFFFF#32
  | .solveb, _ => 0xFFFFFFFF#32
  | .solvea, _ => 0xFFFFFFFF#32
  | .setalpha, _ => 0xFFFFFFFF#32
  | .append, n => BitVec.ofNat 32 (2 ^ (8 * n.toNat) - 1)
  | .nop, _ => 0#32
  | .getacc, _ => 0#32
  | .applyp, _ => 0#32
  | .getpatch, _ => 0#32
  | .getstat, _ => 0#32
  | .getalpha, _ => 0#32
  | .defalpha, _ => 0#32
  | .table, _ => 0#32

/-- The command of an opcode with operands taken from the fields, no extension or scaling (R62). -/
def buildInstr : Opcode → Byte → Word → Instr
  | .nop, _, _ => .nop
  | .set, _, imm => .set imm
  | .append, n, imm => .append n imm
  | .getacc, _, _ => .getacc
  | .solveb, _, imm => .solveb imm
  | .solvea, _, imm => .solvea imm
  | .applyp, _, _ => .applyp
  | .getpatch, n, _ => .getpatch (n.setWidth 1)
  | .getstat, _, _ => .getstat
  | .setalpha, n, imm => .setalpha (n.setWidth 3) imm
  | .getalpha, n, _ => .getalpha (n.setWidth 3)
  | .defalpha, _, _ => .defalpha
  | .table, n, _ => .table n

/-- Why a word is no legal command: which check of R64 fails first, with the offending field's value. -/
inductive DecodeError where
  /-- Check 1: `OPC > 0x0C`. -/
  | illegalOpcode (opc : Byte)
  /-- Check 2: `RSV != 0`. -/
  | reservedRsv (rsv : BitVec 16)
  /-- Check 3: `N` is not in `legal_N(OPC)`. -/
  | illegalOperand (n : Byte)
  /-- Check 4: a bit of `IMM` outside `imm_used_mask(OPC, N)` is set. -/
  | reservedImm (imm : Word)
deriving DecidableEq, Repr

/-- The decoder: the four checks in the order of R64, the first that fails decides (R175). Total on 64-bit words (R65). -/
def decode (c : Command) : Except DecodeError Instr :=
  match opcodeOf (cmdOpc c) with
  | none => .error (.illegalOpcode (cmdOpc c))
  | some op =>
    if cmdRsv c ≠ 0#16 then .error (.reservedRsv (cmdRsv c))
    else if legalN op (cmdN c) = false then .error (.illegalOperand (cmdN c))
    else if cmdImm c &&& ~~~ immUsedMask op (cmdN c) ≠ 0#32 then .error (.reservedImm (cmdImm c))
    else .ok (buildInstr op (cmdN c) (cmdImm c))

/-- The opcode of a command (R63). -/
def Instr.opcode : Instr → Opcode
  | .nop => .nop
  | .set _ => .set
  | .append _ _ => .append
  | .getacc => .getacc
  | .solveb _ => .solveb
  | .solvea _ => .solvea
  | .applyp => .applyp
  | .getpatch _ => .getpatch
  | .getstat => .getstat
  | .setalpha _ _ => .setalpha
  | .getalpha _ => .getalpha
  | .defalpha => .defalpha
  | .table _ => .table

/-- The field N of a command: its small operand, 0 where it has none (R63). -/
def Instr.fieldN : Instr → Byte
  | .append n _ => n
  | .getpatch n => n.setWidth 8
  | .setalpha n _ => n.setWidth 8
  | .getalpha n => n.setWidth 8
  | .table n => n
  | .nop => 0#8
  | .set _ => 0#8
  | .getacc => 0#8
  | .solveb _ => 0#8
  | .solvea _ => 0#8
  | .applyp => 0#8
  | .getstat => 0#8
  | .defalpha => 0#8

/-- The field IMM of a command: its 32-bit operand, 0 where it has none (R63). -/
def Instr.fieldImm : Instr → Word
  | .set imm => imm
  | .append _ imm => imm
  | .solveb imm => imm
  | .solvea imm => imm
  | .setalpha _ imm => imm
  | .nop => 0#32
  | .getacc => 0#32
  | .applyp => 0#32
  | .getpatch _ => 0#32
  | .getstat => 0#32
  | .getalpha _ => 0#32
  | .defalpha => 0#32
  | .table _ => 0#32

/-- The encoder: the command word of a command (R61, R63). -/
def encode (i : Instr) : Command := mkCommand i.opcode.value i.fieldN 0#16 i.fieldImm

/-- The command that the decoder reads from a word given as a number whose low `nbits` bits count (bit 0 is the word's
least significant bit); none where the word is not legal. -/
def decodeTableWord (nbits w : Nat) : Option Instr :=
  match decode (BitVec.ofNat 64 (w % 2 ^ nbits)) with
  | .ok i => some i
  | .error _ => none

/-- A row of spec/opcode_table.json: the opcode it stands for, its match word and its mask. -/
structure TableRow where
  op : Opcode
  word : Command
  mask : Command
deriving DecidableEq, Repr

/-- The thirteen rows of spec/opcode_table.json, in its order. -/
def opcodeTable : List TableRow := [
  ⟨.nop, 0x0000000000000000#64, 0xFFFFFFFFFFFFFFFF#64⟩,
  ⟨.set, 0x0100000000000000#64, 0xFFFFFFFF00000000#64⟩,
  ⟨.append, 0x0200000000000000#64, 0xFF00FFFF00000000#64⟩,
  ⟨.getacc, 0x0300000000000000#64, 0xFFFFFFFFFFFFFFFF#64⟩,
  ⟨.solveb, 0x0400000000000000#64, 0xFFFFFFFF00000000#64⟩,
  ⟨.solvea, 0x0500000000000000#64, 0xFFFFFFFF00000000#64⟩,
  ⟨.applyp, 0x0600000000000000#64, 0xFFFFFFFFFFFFFFFF#64⟩,
  ⟨.getpatch, 0x0700000000000000#64, 0xFFFEFFFFFFFFFFFF#64⟩,
  ⟨.getstat, 0x0800000000000000#64, 0xFFFFFFFFFFFFFFFF#64⟩,
  ⟨.setalpha, 0x0900000000000000#64, 0xFFF8FFFF00000000#64⟩,
  ⟨.getalpha, 0x0A00000000000000#64, 0xFFF8FFFFFFFFFFFF#64⟩,
  ⟨.defalpha, 0x0B00000000000000#64, 0xFFFFFFFFFFFFFFFF#64⟩,
  ⟨.table, 0x0C00000000000000#64, 0xFF00FFFFFFFFFFFF#64⟩]

/-- The row's constraints beyond its mask: only APPEND has any, "N <= 4" and "IMM[31:8*N] = 0". -/
def TableRow.constraint (r : TableRow) (c : Command) : Bool :=
  match r.op with
  | .append => Instr.appendCountOk (cmdN c) && Instr.appendDataOk (cmdN c) (cmdImm c)
  | _ => true

/-- A word matches a row: the row's match under its mask, and its constraints (R65). -/
def TableRow.accepts (r : TableRow) (c : Command) : Bool := (c &&& r.mask = r.word) && r.constraint c

end Sys2Proof
end

