-- ==== Sys2Proof/Config.lean ====
section
/-! DEFINITION. The parameters of spec/00_scope.md section 4, and the one value the spec leaves open. -/

namespace Sys2Proof.Config

/-- `POLY`, the reflected generator polynomial, fixed (R2). -/
def polynomial : Word := 0xEDB88320#32

/-- `MIN_ALPHABET_SIZE`: the smallest alphabet that is not InvalidAlphabet (R123, 92 D10). -/
def minAlphabetSize : Nat := 1

/-- `ACC_RESET_VALUE` (R5, R21, R190; 92 D16; 93 U1): any 32-bit value, drawn anew at each block reset, about which
the model assumes nothing. A FREE VALUE: the constant has no body that Lean can evaluate; draw number 0 is the one of
power-on (log 1). DESIGN CHOICE, unsafe only for a claim that relies on one run having one fixed sequence of draws. -/
opaque accResetValue : Nat → Word

end Sys2Proof.Config
end

