-- ==== Sys2Proof/Machine/Alphabet.lean ====
section
/-! DEFINITION. The alphabet as a set of byte values (spec/10_state.md R26): membership, size, members, the eight
32-bit words and the default. -/

namespace Sys2Proof.Machine

/-- `A[b] = 1`: byte value `b` is a member (R26). -/
def hasByte (A : Alphabet) (b : Byte) : Bool := A.getLsbD b.toNat

/-- `popcount(ALPHA)`: the number of members (00_scope.md section 5, R29). -/
def popcount (A : Alphabet) : Nat := (List.range 256).countP A.getLsbD

/-- `members_ascending(A)`: the members in increasing order (00_scope.md section 5). -/
def members (A : Alphabet) : List Byte := ((List.range 256).filter A.getLsbD).map (BitVec.ofNat 8)

/-- The bit where alphabet word `n` begins: word n is bits `32n+31 .. 32n` (R26). -/
def wordBase (n : BitVec 3) : Nat := 32 * n.toNat

/-- Alphabet word `n`, with `ALPHA[32n]` in bit 0 (R26, R129). -/
def alphaWord (A : Alphabet) (n : BitVec 3) : Word := A.extractLsb' (wordBase n) 32

/-- The alphabet with word `n` replaced by `w`, the other 224 bits kept (R128). -/
def setAlphaWord (A : Alphabet) (n : BitVec 3) (w : Word) : Alphabet :=
  (A &&& ~~~ ((0xFFFFFFFF#256) <<< wordBase n)) ||| (w.setWidth 256 <<< wordBase n)

/-- The default alphabet, byte values 0x20 to 0x7E: words 7 down to 0 as R26 lists them. -/
def defaultAlphabet : Alphabet :=
  0x00000000#32 ++ 0x00000000#32 ++ 0x00000000#32 ++ 0x00000000#32 ++
  0x7FFFFFFF#32 ++ 0xFFFFFFFF#32 ++ 0xFFFFFFFF#32 ++ 0x00000000#32

end Sys2Proof.Machine
end

