-- ==== Sys2Proof/Machine/State.lean ====
section
/-! DEFINITION. The architectural state of the block (spec/10_state.md R20; the constant tables stand in
Machine/Tables.lean, as spec/30_encoding.md R67 keeps them out of the step's record), the host's side of the command
port, the reasons a step can stop, and the state after block reset (spec/70_reset_and_hazards.md R190). -/

namespace Sys2Proof.Machine

/-- What the host may do that the block reacts to (spec/43_interface.md R155). Sampling OUT changes nothing and needs
no action. -/
inductive HostAction where
  /-- Issue one command word and wait for its completion (R60, R155). -/
  | command (w : Command)
  /-- Assert block reset; `inProgress` is the command that is running at that moment, if any (R191). -/
  | reset (inProgress : Option Command)
deriving DecidableEq, Repr

/-- The state of the block. -/
structure State where
  /-- `ACC`, the raw CRC-32 accumulator (R21). -/
  acc : Word
  /-- `PATCH[0..5]`, the last forcing result (R25). -/
  patch : Patch
  /-- `PLEN`, the length of the patch: 0, 4 or 6 (R25). -/
  plen : BitVec 3
  /-- `ALPHA[0..255]`, the alphabet (R26). -/
  alpha : Alphabet
  /-- `ERR`, the outcome of the last command other than NOP and GETSTAT (R27). -/
  err : BitVec 4
  /-- `OUT`, the read-data register (R28). -/
  out : Word
  /-- The model's own: what the host does next, first action first (log 2). -/
  port : List HostAction
  /-- The model's own: how many values of `ACC_RESET_VALUE` have been drawn (log 1). -/
  resets : Nat
deriving DecidableEq, Repr

/-- The block has no fault outcome (R67, R154, R177): no step ever faults, so the type has no constructor. Safe: the
spec gives every word a next state. -/
inductive Fault where
deriving DecidableEq, Repr

/-- Why a step could be refused. -/
inductive Refusal where
  /-- Raised only by `exec`'s arm of an instruction that has no meaning yet. No arm of this model raises it. Safe: the
  model stops where the hardware goes on. -/
  | notModelled (mnemonic : String)
deriving DecidableEq, Repr

/-- The state right after block reset, given the accumulator's unspecified reset value as an argument (R5, R190). -/
def State.afterReset (accResetValue : Word) : State where
  acc := accResetValue
  patch := Patch.zero
  plen := 0#3
  alpha := defaultAlphabet
  err := 0#4
  out := 0#32
  port := []
  resets := 1

/-- The machine right after its first block reset (R190), ACC holding the free value of draw 0 (log 1) and no command
issued yet (log 2). -/
def State.reset : State := State.afterReset (Config.accResetValue 0)

end Sys2Proof.Machine
end

