-- ==== Sys2Proof/Machine/Flags.lean ====
section
/-! DEFINITION. The error codes of ERR (spec/60_exceptions.md R170) and the status word (spec/10_state.md R29): the
block's only flags (R32). -/

namespace Sys2Proof.Machine

/-- The outcomes that ERR reports (R170). Codes 7 to 15 are never written. -/
inductive ErrCode where
  | ok
  | noSolution
  | invalidAlphabet
  | noPatch
  | illegalOpcode
  | illegalOperand
  | reservedNonzero
deriving DecidableEq, Repr

/-- The number of an error code (R170). -/
def ErrCode.code : ErrCode → BitVec 4
  | .ok => 0#4
  | .noSolution => 1#4
  | .invalidAlphabet => 2#4
  | .noPatch => 3#4
  | .illegalOpcode => 4#4
  | .illegalOperand => 5#4
  | .reservedNonzero => 6#4

/-- The error that a failed decode check raises (R64). -/
def errOfDecode : DecodeError → ErrCode
  | .illegalOpcode _ => .illegalOpcode
  | .reservedRsv _ => .reservedNonzero
  | .illegalOperand _ => .illegalOperand
  | .reservedImm _ => .reservedNonzero

/-- `PVALID`: 1 exactly when PLEN is not 0 (R25, R29). -/
def pvalid (s : State) : BitVec 1 := if s.plen = 0#3 then 0#1 else 1#1

/-- The status word (R29): `ACOUNT` in 24:16, `PLEN` in 10:8, `PVALID` in 4, `ERR` in 3:0, reserved bits 0. -/
def statusWord (s : State) : Word :=
  0#7 ++ BitVec.ofNat 9 (popcount s.alpha) ++ 0#5 ++ s.plen ++ 0#3 ++ pvalid s ++ s.err

end Sys2Proof.Machine
end

