-- ==== Sys2Proof/Machine/Tables.lean ====
section
/-! DEFINITION. The two ROMs of the block: the lookup table LUT (spec/10_state.md R22, R23) and the inverse top-byte
table RINV (R24). Constants: no command and no reset writes them. -/

namespace Sys2Proof.Machine

/-- One single-bit reflected-polynomial division: shift right, and XOR the polynomial if the bit shifted out was 1 (R23). -/
def genStep (c : Word) : Word :=
  if c.getLsbD 0 then (c >>> 1) ^^^ Config.polynomial else c >>> 1

/-- `f` applied `n` times. -/
def iterate (f : Word → Word) : Nat → Word → Word
  | 0, a => a
  | n + 1, a => iterate f n (f a)

/-- `LUT[i]`: entry i of the lookup table, eight single-bit divisions starting from the index (R23). -/
def lut (i : Byte) : Word := iterate genStep 8 (i.setWidth 32)

/-- Bits 31:24 of a word. -/
def topByte (w : Word) : Byte := w.extractLsb' 24 8

/-- The contents of RINV as spec/95_test_vectors.md section 2 prints them: row t/16, sixteen entries a row, the entry of
the smallest t leftmost. -/
def rinvRows : List (BitVec 128) := [
  0x0041C38286C745044D0C8ECFCB8A0849#128,
  0x9ADB59181C5DDF9ED7961455511092D3#128,
  0x7534B6F7F3B230713879FBBABEFF7D3C#128,
  0xEFAE2C6D6928AAEBA2E361202465E7A6#128,
  0xEAAB29686C2DAFEEA7E664252160E2A3#128,
  0x7031B3F2F6B735743D7CFEBFBBFA7839#128,
  0x9FDE5C1D1958DA9BD2931150541597D6#128,
  0x0544C68783C2400148098BCACE8F0D4C#128,
  0x95D456171352D091D8991B5A5E1F9DDC#128,
  0x0F4ECC8D89C84A0B420381C0C4850746#128,
  0xE0A123626627A5E4ADEC6E2F2B6AE8A9#128,
  0x7A3BB9F8FCBD3F7E3776F4B5B1F07233#128,
  0x7F3EBCFDF9B83A7B3273F1B0B4F57736#128,
  0xE5A426676322A0E1A8E96B2A2E6FEDAC#128,
  0x0A4BC9888CCD4F0E470684C5C1800243#128,
  0x90D153121657D594DD9C1E5F5B1A98D9#128]

/-- `RINV[t]`: the index i with `LUT[i][31:24] = t` (R24). -/
def rinv (t : Byte) : Byte :=
  ((rinvRows.getD (t.toNat / 16) 0#128) >>> (8 * (15 - t.toNat % 16))).setWidth 8

end Sys2Proof.Machine
end

