-- ==== Sys2Proof/Machine/Crc.lean ====
section
/-! DEFINITION. The table-driven incrementer's arithmetic (spec/40_crc_engine.md R80). -/

namespace Sys2Proof.Machine

/-- Bits 7:0 of a word. -/
def lowByte (w : Word) : Byte := w.setWidth 8

/-- The update of the accumulator by one byte (R80). -/
def crcStep (a : Word) (b : Byte) : Word := lut (lowByte (a ^^^ b.setWidth 32)) ^^^ (a >>> 8)

/-- The update by a byte sequence, first byte first (R80, R42). -/
def crcAppend (a : Word) (bs : List Byte) : Word := bs.foldl crcStep a

end Sys2Proof.Machine
end

