-- ==== Sys2Proof/Machine/Operands.lean ====
section
/-! DEFINITION. Packing between byte sequences and words: little-endian, sequence element k in bits 8k+7 .. 8k
(spec/20_memory.md R43; spec/30_encoding.md R62). -/

namespace Sys2Proof.Machine

/-- Byte `k` of a word: bits `8k+7 .. 8k` (R43). -/
def byteOf (w : Word) (k : Nat) : Byte := w.extractLsb' (8 * k) 8

/-- The data bytes of an APPEND: byte j is `IMM[8j+7:8j]` for j below the count (R82). -/
def appendBytes (n : Byte) (imm : Word) : List Byte := (List.range n.toNat).map (byteOf imm)

/-- Four bytes packed into a word, the first in bits 7:0 (R43). -/
def packWord (b0 b1 b2 b3 : Byte) : Word := b3 ++ b2 ++ b1 ++ b0

/-- GETPATCH's word `n` of the patch: word 0 holds `PATCH[0..3]`, word 1 holds `PATCH[4..5]` below two zero bytes (R151). -/
def patchWord (p : Patch) (n : BitVec 1) : Word :=
  if n = 0#1 then packWord p.b0 p.b1 p.b2 p.b3 else packWord p.b4 p.b5 0#8 0#8

/-- The stored patch as the sequence that APPLYP appends: `PATCH[0], ..., PATCH[PLEN-1]` (R153;
log 11 on a PLEN that no run reaches). -/
def patchBytes (p : Patch) (plen : BitVec 3) : List Byte := p.toList.take plen.toNat

/-- A binary patch as the register holds it: two zero bytes follow (R104). -/
def patchOfQuad (q : Quad) : Patch := ⟨q.b0, q.b1, q.b2, q.b3, 0#8, 0#8⟩

end Sys2Proof.Machine
end

