-- ==== Sys2Proof/Machine/Inversion.lean ====
section
/-! DEFINITION. The polynomial inverter (spec/41_binary_forcing.md R100 to R102). -/

namespace Sys2Proof.Machine

/-- One backward step: remove the entry of the recovered index and move the next one into the top byte (R101). -/
def peel (x : Word) (i : Byte) : Word := (x ^^^ lut i) <<< 8

/-- Index recovery: the four table indices that the byte steps must use, recovered from the target alone, last step
first (R101). -/
def binIndices (t : Word) : Quad :=
  let x3 := t
  let i3 := rinv (topByte x3)
  let x2 := peel x3 i3
  let i2 := rinv (topByte x2)
  let x1 := peel x2 i2
  let i1 := rinv (topByte x1)
  let x0 := peel x1 i1
  let i0 := rinv (topByte x0)
  ⟨i0, i1, i2, i3⟩

/-- The byte that makes the next step from `a` use the table index `i` (R102). -/
def byteFor (a : Word) (i : Byte) : Byte := lowByte a ^^^ i

/-- Byte recovery for given indices, forward from the state `s` (R102). -/
def bytesFor (s : Word) (i : Quad) : Quad :=
  let p0 := byteFor s i.b0
  let a1 := crcStep s p0
  let p1 := byteFor a1 i.b1
  let a2 := crcStep a1 p1
  let p2 := byteFor a2 i.b2
  let a3 := crcStep a2 p2
  let p3 := byteFor a3 i.b3
  ⟨p0, p1, p2, p3⟩

/-- `bin_solve(S, T)`: the unique four bytes that take the accumulator from `s` to `t` (R100, R102). -/
def binSolve (s t : Word) : Quad := bytesFor s (binIndices t)

end Sys2Proof.Machine
end

