-- ==== Sys2Proof/Machine/Search.lean ====
section
/-! DEFINITION. The inverter with alphabet constraint (spec/42_printable_forcing.md R120 to R126): a search over two
padding bytes with a derived four-byte suffix. -/

namespace Sys2Proof.Machine

/-- What the printable solver answers (R121). -/
inductive SearchResult where
  /-- A patch of six bytes of the alphabet that forces the target (R120). -/
  | ok (p : Patch)
  /-- The alphabet has fewer members than `MIN_ALPHABET_SIZE`; no candidate was tried (R123). -/
  | invalidAlphabet
  /-- Every candidate was tried and none has its suffix in the alphabet (R121, R124). -/
  | noSolutionFound
deriving DecidableEq, Repr

/-- Every byte of a quad is a member of the alphabet. -/
def quadIn (A : Alphabet) (q : Quad) : Bool :=
  hasByte A q.b0 && hasByte A q.b1 && hasByte A q.b2 && hasByte A q.b3

/-- One candidate padding pair: its patch if the derived suffix lies in the alphabet (R121). -/
def tryCandidate (s t : Word) (A : Alphabet) (p0 p1 : Byte) : Option Patch :=
  let q := binSolve (crcAppend s [p0, p1]) t
  if quadIn A q then some ⟨p0, p1, q.b0, q.b1, q.b2, q.b3⟩ else none

/-- The first candidate that is accepted, the second padding byte in the outer loop and the first in the inner loop,
each over the members `L` in ascending order (R121, R122). -/
def firstCandidate (s t : Word) (A : Alphabet) (L : List Byte) : Option Patch :=
  L.findSome? fun p1 => L.findSome? fun p0 => tryCandidate s t A p0 p1

/-- `asc_solve(S, T, A)` (R121): the alphabet is checked first (R123), then every padding pair is tried (92 D9). -/
def ascSolve (s t : Word) (A : Alphabet) : SearchResult :=
  if popcount A < Config.minAlphabetSize then .invalidAlphabet
  else match firstCandidate s t A (members A) with
    | some p => .ok p
    | none => .noSolutionFound

end Sys2Proof.Machine
end

