-- ==== Sys2Proof/Machine/Ops.lean ====
section
/-! DEFINITION. The named operations over the registers: one write per register, ending a command with an error
(spec/60_exceptions.md R172; the block has no trap entry and no return, R177), block reset
(spec/70_reset_and_hazards.md R190, R191), and taking the host's next action. -/

namespace Sys2Proof.Machine

/-- `ACC <- v` (R21). -/
def State.setAcc (s : State) (v : Word) : State := { s with acc := v }

/-- `PATCH <- p; PLEN <- n` (R25: the solvers write both together). -/
def State.setPatch (s : State) (p : Patch) (n : BitVec 3) : State := { s with patch := p, plen := n }

/-- `ALPHA <- A` (R26). -/
def State.setAlpha (s : State) (A : Alphabet) : State := { s with alpha := A }

/-- `ERR <- code(e)` (R27). -/
def State.setErr (s : State) (e : ErrCode) : State := { s with err := e.code }

/-- `OUT <- v` (R28). -/
def State.setOut (s : State) (v : Word) : State := { s with out := v }

/-- The host's remaining actions. -/
def State.setPort (s : State) (p : List HostAction) : State := { s with port := p }

/-- `raise E`: the command ends with `ERR <- code(E)` and no other write, `s` being the state before the command (R172). -/
def raise (e : ErrCode) (s : State) : State := s.setErr e

/-- A read command's end: `OUT <- v; ERR <- OK` (R83, R84, R129, R151). -/
def readOut (v : Word) (s : State) : State := (s.setOut v).setErr .ok

/-- The end of a failed SOLVEA: no patch is left that could be taken for a result (R124, R173). -/
def failSolve (e : ErrCode) (s : State) : State := (s.setPatch Patch.zero 0#3).setErr e

/-- Block reset (R190, R191): every register takes its reset value and ACC a newly drawn `ACC_RESET_VALUE`; a command
in progress leaves no effect. What the host goes on to do is its own (log 6). -/
def blockReset (s : State) : State :=
  { State.afterReset (Config.accResetValue s.resets) with port := s.port, resets := s.resets + 1 }

/-- The host's next action and the state with that action taken off the port; none while the host does nothing (R60). -/
def takeAction (s : State) : Option (HostAction × State) :=
  match s.port with
  | [] => none
  | a :: rest => some (a, s.setPort rest)

end Sys2Proof.Machine
end

