-- ==== Sys2Proof/Machine/BinaryForcing.lean ====
section
/-! DEFINITION. The binary forcing command SOLVEB (spec/41_binary_forcing.md R104). -/

namespace Sys2Proof.Machine

/-- SOLVEB (R104): `PATCH <- bin_solve(ACC, IMM)` and two zero bytes, `PLEN <- 4; ERR <- OK`. -/
def execSolveb (imm : Word) (s : State) : Host.Outcome State Fault Refusal :=
  .next ((s.setPatch (patchOfQuad (binSolve s.acc imm)) 4#3).setErr .ok)

end Sys2Proof.Machine
end

