-- ==== Sys2Proof/Machine/CrcEngine.lean ====
section
/-! DEFINITION. The CRC engine commands SET, APPEND, GETACC and TABLE (spec/40_crc_engine.md). -/

namespace Sys2Proof.Machine

/-- SET (R81): `ACC <- IMM; ERR <- OK`. -/
def execSet (imm : Word) (s : State) : Host.Outcome State Fault Refusal :=
  .next ((s.setAcc imm).setErr .ok)

/-- APPEND (R82): the accumulator extended by the `n` bytes of `imm`. The two errors that R82 lists are raised here as
well, so that an operand pair that no legal word carries has the outcome of the word that would carry it (R64; log 8). -/
def execAppend (n : Byte) (imm : Word) (s : State) : Host.Outcome State Fault Refusal :=
  if legalN .append n = false then .next (raise .illegalOperand s)
  else if imm &&& ~~~ immUsedMask .append n ≠ 0#32 then .next (raise .reservedNonzero s)
  else .next ((s.setAcc (crcAppend s.acc (appendBytes n imm))).setErr .ok)

/-- GETACC (R83): `OUT <- ACC; ERR <- OK`. The raw accumulator, never its complement (R86). -/
def execGetacc (s : State) : Host.Outcome State Fault Refusal := .next (readOut s.acc s)

/-- TABLE (R84): `OUT <- LUT[N]; ERR <- OK`. -/
def execTable (n : Byte) (s : State) : Host.Outcome State Fault Refusal := .next (readOut (lut n) s)

end Sys2Proof.Machine
end

