-- ==== Sys2Proof/Machine/Interface.lean ====
section
/-! DEFINITION. The interface commands NOP, GETPATCH, GETSTAT and APPLYP (spec/43_interface.md R150 to R153). -/

namespace Sys2Proof.Machine

/-- NOP (R150): no state is written, ERR not either. -/
def execNop (s : State) : Host.Outcome State Fault Refusal := .next s

/-- GETPATCH (R151): `OUT <-` the packed patch word; `ERR <- OK`. Reading with PLEN = 0 is no error. -/
def execGetpatch (n : BitVec 1) (s : State) : Host.Outcome State Fault Refusal :=
  .next (readOut (patchWord s.patch n) s)

/-- GETSTAT (R152): `OUT <- status_word`; ERR is not written. -/
def execGetstat (s : State) : Host.Outcome State Fault Refusal := .next (s.setOut (statusWord s))

/-- APPLYP (R153): NO_PATCH when PLEN = 0; else the accumulator extended by the PLEN stored bytes. -/
def execApplyp (s : State) : Host.Outcome State Fault Refusal :=
  if s.plen = 0#3 then .next (raise .noPatch s)
  else .next ((s.setAcc (crcAppend s.acc (patchBytes s.patch s.plen))).setErr .ok)

end Sys2Proof.Machine
end

