-- ==== Sys2Proof/Machine/PrintableForcing.lean ====
section
/-! DEFINITION. The printable forcing command SOLVEA and the alphabet commands SETALPHA, GETALPHA and DEFALPHA
(spec/42_printable_forcing.md R127 to R130). -/

namespace Sys2Proof.Machine

/-- What SOLVEA writes for each answer of the search (R127). -/
def finishSolve : SearchResult → State → State
  | .ok p, s => (s.setPatch p 6#3).setErr .ok
  | .invalidAlphabet, s => failSolve .invalidAlphabet s
  | .noSolutionFound, s => failSolve .noSolution s

/-- SOLVEA (R127): the printable search from ACC to IMM under ALPHA. -/
def execSolvea (imm : Word) (s : State) : Host.Outcome State Fault Refusal :=
  .next (finishSolve (ascSolve s.acc imm s.alpha) s)

/-- SETALPHA (R128): `ALPHA[32n + j] <- IMM[j]` for j in 0 to 31; `ERR <- OK`. -/
def execSetalpha (n : BitVec 3) (imm : Word) (s : State) : Host.Outcome State Fault Refusal :=
  .next ((s.setAlpha (setAlphaWord s.alpha n imm)).setErr .ok)

/-- GETALPHA (R129): `OUT[j] <- ALPHA[32n + j]` for j in 0 to 31; `ERR <- OK`. -/
def execGetalpha (n : BitVec 3) (s : State) : Host.Outcome State Fault Refusal :=
  .next (readOut (alphaWord s.alpha n) s)

/-- DEFALPHA (R130): the default alphabet; `ERR <- OK`. -/
def execDefalpha (s : State) : Host.Outcome State Fault Refusal :=
  .next ((s.setAlpha defaultAlphabet).setErr .ok)

end Sys2Proof.Machine
end

