-- ==== Sys2Proof/Machine/Dispatch.lean ====
section
/-! DEFINITION. One arm per command (spec/30_encoding.md R67). -/

namespace Sys2Proof.Machine

def exec (i : Instr) (s : State) : Host.Outcome State Fault Refusal :=
  match i with
  | .nop => Sys2Proof.Machine.execNop s
  | .set imm => Sys2Proof.Machine.execSet imm s
  | .append n imm => Sys2Proof.Machine.execAppend n imm s
  | .getacc => Sys2Proof.Machine.execGetacc s
  | .solveb imm => Sys2Proof.Machine.execSolveb imm s
  | .solvea imm => Sys2Proof.Machine.execSolvea imm s
  | .applyp => Sys2Proof.Machine.execApplyp s
  | .getpatch n => Sys2Proof.Machine.execGetpatch n s
  | .getstat => Sys2Proof.Machine.execGetstat s
  | .setalpha n imm => Sys2Proof.Machine.execSetalpha n imm s
  | .getalpha n => Sys2Proof.Machine.execGetalpha n s
  | .defalpha => Sys2Proof.Machine.execDefalpha s
  | .table n => Sys2Proof.Machine.execTable n s

end Sys2Proof.Machine
end

