-- ==== Sys2Proof/Machine/Issue.lean ====
section
/-! DEFINITION. One command word consumed (spec/30_encoding.md R67), one host action carried out, and a run with its
observation (spec/43_interface.md R154). -/

namespace Sys2Proof.Machine

/-- One step of the block on a command word: a decode error ends it with the error's code and no other write, a legal
word is executed (R67). -/
def issue (w : Command) (s : State) : Host.Outcome State Fault Refusal :=
  match decode w with
  | .ok i => exec i s
  | .error e => .next (raise (errOfDecode e) s)

/-- One host action carried out (R155). A reset that cuts a command short gives the state of a reset alone (R191). -/
def perform (a : HostAction) (s : State) : Host.Outcome State Fault Refusal :=
  match a with
  | .command w => issue w s
  | .reset _ => .next (blockReset s)

/-- The read commands: the writers of OUT (R28). -/
def isReadInstr : Instr → Bool
  | .getacc => true
  | .getpatch _ => true
  | .getstat => true
  | .getalpha _ => true
  | .table _ => true
  | .nop => false
  | .set _ => false
  | .append _ _ => false
  | .solveb _ => false
  | .solvea _ => false
  | .applyp => false
  | .setalpha _ _ => false
  | .defalpha => false

/-- A word that is executed as a read command. A word that fails decoding reads nothing (R172; log 9). -/
def isReadWord (w : Command) : Bool :=
  match decode w with
  | .ok i => isReadInstr i
  | .error _ => false

/-- A run (R154): the command words issued one after another, its observation being OUT after each read command,
first read first, and the final state. -/
def issueAll : List Command → State → Host.Outcome (List Word × State) Fault Refusal
  | [], s => .next ([], s)
  | w :: ws, s =>
    match issue w s with
    | .next t =>
      match issueAll ws t with
      | .next (obs, u) => .next (if isReadWord w then t.out :: obs else obs, u)
      | .fault r => .fault r
      | .refused r => .refused r
    | .fault r => .fault r
    | .refused r => .refused r

end Sys2Proof.Machine
end

