-- ==== Sys2Proof/Machine/Step.lean ====
section
/-! DEFINITION. The step of the machine: the host's next action, carried out whole (spec/20_memory.md R44, R46;
spec/30_encoding.md R60). -/

namespace Sys2Proof.Machine

/-- One step: the next host action is taken off the port and carried out. While the host does nothing the block waits
unchanged (DESIGN CHOICE, log 4). -/
def step (s : State) : Host.Outcome State Fault Refusal :=
  match takeAction s with
  | none => .next s
  | some (a, t) => perform a t

/-- `s` with the command word whose low `nbits` bits are those of `w`, the rest 0, as the host's next action, ahead of
whatever the host would do next. The block has no program counter and stores no program (R30): issuing the word is all
that running it takes. -/
def State.withFetchWord (s : State) (nbits w : Nat) : State :=
  s.setPort (.command (BitVec.ofNat 64 (w % 2 ^ nbits)) :: s.port)

end Sys2Proof.Machine
end

