-- ==== Sys2Proof/Machine/Assembler.lean ====
section
/-! DEFINITION. The assembly syntax and the pseudo-instructions (spec/30_encoding.md R68, R69). Syntax has no behaviour
of its own (92 D23): this file turns source text into command words, which the host then issues. -/

namespace Sys2Proof.Machine

/-- The pseudo-instructions (R69). -/
inductive Pseudo where
  /-- `SEED`: the standard seed. -/
  | seed
  /-- `APPENDB b`: one byte. -/
  | appendb (b : Byte)
  /-- `APPENDW w`: four bytes, little-endian. -/
  | appendw (w : Word)
  /-- `APPENDS "text"`: the bytes of a string. -/
  | appends (text : List Byte)
  /-- `ALPHACLR`: the empty alphabet. -/
  | alphaclr
  /-- `ALPHAONE b`: the alphabet of one member. -/
  | alphaone (b : Byte)
deriving DecidableEq, Repr

/-- One `APPEND 4` per whole group of four bytes, then one APPEND for the bytes left over, if any (R69). -/
def appendGroups : List Byte → List Instr
  | b0 :: b1 :: b2 :: b3 :: rest => .append 4#8 (packWord b0 b1 b2 b3) :: appendGroups rest
  | [b0, b1, b2] => [.append 3#8 (packWord b0 b1 b2 0#8)]
  | [b0, b1] => [.append 2#8 (packWord b0 b1 0#8 0#8)]
  | [b0] => [.append 1#8 (packWord b0 0#8 0#8 0#8)]
  | [] => []

/-- The word of `ALPHAONE b` for index `n`: `1 << (b mod 32)` if n = b div 32, else 0 (R69). -/
def alphaOneWord (b : Byte) (n : Nat) : Word := if n = b.toNat / 32 then 1#32 <<< (b.toNat % 32) else 0#32

/-- The expansions (R69). -/
def Pseudo.expand : Pseudo → List Instr
  | .seed => [.set 0xFFFFFFFF#32]
  | .appendb b => [.append 1#8 (b.setWidth 32)]
  | .appendw w => [.append 4#8 w]
  | .appends [] => [.append 0#8 0#32]
  | .appends (b :: bs) => appendGroups (b :: bs)
  | .alphaclr => (List.range 8).map fun n => .setalpha (BitVec.ofNat 3 n) 0#32
  | .alphaone b => (List.range 8).map fun n => .setalpha (BitVec.ofNat 3 n) (alphaOneWord b n)

/-- Why a line is not assembled (R68: an operand that does not fit its field is an assembly error). -/
inductive AsmError where
  /-- The line's first word is no mnemonic, pseudo-instruction or directive. -/
  | unknownMnemonic
  /-- The operands are not those of the mnemonic's form. -/
  | wrongOperands
  /-- An operand is neither a decimal number nor a hexadecimal one with the prefix 0x. -/
  | badNumber
  /-- An operand does not fit its field. -/
  | doesNotFit
  /-- A character of a string has no ASCII byte. -/
  | notAscii
deriving DecidableEq, Repr

/-- The operand forms (R68). -/
inductive AsmForm where
  | plain
  | imm
  | n
  | nImm
deriving DecidableEq, Repr

/-- Each mnemonic's operand form (R68). -/
def asmForm : Opcode → AsmForm
  | .nop => .plain
  | .set => .imm
  | .append => .nImm
  | .getacc => .plain
  | .solveb => .imm
  | .solvea => .imm
  | .applyp => .plain
  | .getpatch => .n
  | .getstat => .plain
  | .setalpha => .nImm
  | .getalpha => .n
  | .defalpha => .plain
  | .table => .n

/-- A number in a field of `w` bits, or the error (R68). -/
def fit (w v : Nat) : Except AsmError (BitVec w) :=
  if v < 2 ^ w then .ok (BitVec.ofNat w v) else .error .doesNotFit

/-- The word of a mnemonic with its operands. The word is emitted as written, even if R64 would reject it (R68). -/
def assembleOp (op : Opcode) (args : List Nat) : Except AsmError Command :=
  match asmForm op, args with
  | .plain, [] => .ok (mkCommand op.value 0#8 0#16 0#32)
  | .imm, [v] => do return mkCommand op.value 0#8 0#16 (← fit 32 v)
  | .n, [k] => do return mkCommand op.value (← fit 8 k) 0#16 0#32
  | .nImm, [k, v] => do return mkCommand op.value (← fit 8 k) 0#16 (← fit 32 v)
  | _, _ => .error .wrongOperands

/-- The value of a decimal digit. -/
def decDigit (c : Char) : Option Nat :=
  if '0'.toNat ≤ c.toNat ∧ c.toNat ≤ '9'.toNat then some (c.toNat - '0'.toNat) else none

/-- The value of a hexadecimal digit, either case (log 7). -/
def hexDigit (c : Char) : Option Nat :=
  if 'A'.toNat ≤ c.toNat ∧ c.toNat ≤ 'F'.toNat then some (c.toNat - 'A'.toNat + 10)
  else if 'a'.toNat ≤ c.toNat ∧ c.toNat ≤ 'f'.toNat then some (c.toNat - 'a'.toNat + 10)
  else decDigit c

/-- A non-empty digit string in a base, most significant digit first. -/
def digits (base : Nat) (digit : Char → Option Nat) : List Char → Option Nat
  | [] => none
  | c :: cs => cs.foldl (fun v d => do return (← v) * base + (← digit d)) (digit c)

/-- A number: decimal, or hexadecimal with the prefix 0x (R68). -/
def parseNumber : List Char → Option Nat
  | '0' :: 'x' :: ds => digits 16 hexDigit ds
  | ds => digits 10 decDigit ds

/-- White space inside a line: a space, a tab or a carriage return. DESIGN CHOICE (log 7): R68 does not say what counts
as white space. -/
def isBlank (c : Char) : Bool := c = ' ' || c = '\t' || c = '\r'

/-- A text without white space at its two ends (log 7). -/
def trim (cs : List Char) : List Char := ((cs.dropWhile isBlank).reverse.dropWhile isBlank).reverse

/-- The line up to the `;` that starts a comment (R68); a `;` inside quotation marks starts none (log 7). -/
def dropComment : Bool → List Char → List Char
  | _, [] => []
  | quoted, c :: cs =>
    if c = ';' && !quoted then []
    else c :: dropComment (if c = '"' then !quoted else quoted) cs

/-- A text cut at every separator: a source text at its line feeds, an operand list at its commas. -/
def cut (sep : Char) : List Char → List (List Char)
  | [] => [[]]
  | c :: cs =>
    if c = sep then [] :: cut sep cs
    else match cut sep cs with
      | [] => [[c]]
      | x :: xs => (c :: x) :: xs

/-- The numbers of an operand list separated by commas, white space around each allowed (log 7); no operand for an empty
text. -/
def parseOperands (cs : List Char) : Except AsmError (List Nat) :=
  if trim cs = [] then .ok []
  else (cut ',' cs).mapM fun x => match parseNumber (trim x) with
    | some v => .ok v
    | none => .error .badNumber

/-- The bytes of a quoted text: each character is its ASCII byte (R69). A quotation mark inside the text, and a character
that ASCII does not have, are assembly errors (log 7). -/
def parseText (cs : List Char) : Except AsmError (List Byte) :=
  match trim cs with
  | '"' :: rest =>
    match rest.reverse with
    | '"' :: body =>
      if body.contains '"' then .error .wrongOperands
      else body.reverse.mapM fun c => if c.toNat < 128 then .ok (BitVec.ofNat 8 c.toNat) else .error .notAscii
    | _ => .error .wrongOperands
  | _ => .error .wrongOperands

/-- The opcode of an upper-case mnemonic (R63, R68). -/
def opcodeNamed (name : List Char) : Option Opcode :=
  if name = ['N', 'O', 'P'] then some .nop
  else if name = ['S', 'E', 'T'] then some .set
  else if name = ['A', 'P', 'P', 'E', 'N', 'D'] then some .append
  else if name = ['G', 'E', 'T', 'A', 'C', 'C'] then some .getacc
  else if name = ['S', 'O', 'L', 'V', 'E', 'B'] then some .solveb
  else if name = ['S', 'O', 'L', 'V', 'E', 'A'] then some .solvea
  else if name = ['A', 'P', 'P', 'L', 'Y', 'P'] then some .applyp
  else if name = ['G', 'E', 'T', 'P', 'A', 'T', 'C', 'H'] then some .getpatch
  else if name = ['G', 'E', 'T', 'S', 'T', 'A', 'T'] then some .getstat
  else if name = ['S', 'E', 'T', 'A', 'L', 'P', 'H', 'A'] then some .setalpha
  else if name = ['G', 'E', 'T', 'A', 'L', 'P', 'H', 'A'] then some .getalpha
  else if name = ['D', 'E', 'F', 'A', 'L', 'P', 'H', 'A'] then some .defalpha
  else if name = ['T', 'A', 'B', 'L', 'E'] then some .table
  else none

/-- A pseudo-instruction from its name and operand text; none where the name is not one (R69). The operand of APPENDW goes
to the IMM field of `APPEND 4, w` and is an assembly error where it does not fit there (R68). The operand of APPENDB and
ALPHAONE is taken as a byte, so a value above 255 is the same error. DESIGN CHOICE (log 7): R69 gives ALPHAONE no range,
and what becomes of an `APPENDB b` beyond its `b in 0 to 255` neither R69 nor R68 says, since 256 fits IMM. -/
def pseudoNamed (name rest : List Char) : Option (Except AsmError Pseudo) :=
  if name = ['A', 'P', 'P', 'E', 'N', 'D', 'S'] then some (do return .appends (← parseText rest))
  else if name = ['S', 'E', 'E', 'D'] then some do
    match ← parseOperands rest with
    | [] => return .seed
    | _ => throw .wrongOperands
  else if name = ['A', 'L', 'P', 'H', 'A', 'C', 'L', 'R'] then some do
    match ← parseOperands rest with
    | [] => return .alphaclr
    | _ => throw .wrongOperands
  else if name = ['A', 'P', 'P', 'E', 'N', 'D', 'B'] then some do
    match ← parseOperands rest with
    | [b] => return .appendb (← fit 8 b)
    | _ => throw .wrongOperands
  else if name = ['A', 'P', 'P', 'E', 'N', 'D', 'W'] then some do
    match ← parseOperands rest with
    | [w] => return .appendw (← fit 32 w)
    | _ => throw .wrongOperands
  else if name = ['A', 'L', 'P', 'H', 'A', 'O', 'N', 'E'] then some do
    match ← parseOperands rest with
    | [b] => return .alphaone (← fit 8 b)
    | _ => throw .wrongOperands
  else none

/-- The raw-word directive's name (R68). Its operand may be decimal as well (log 7). -/
def rawDirective : List Char := ['.', 'w', 'o', 'r', 'd', '6', '4']

/-- The command words of one source line (R68, R69): none for an empty or comment line (log 7). -/
def assembleLine (line : List Char) : Except AsmError (List Command) :=
  let text := trim (dropComment false line)
  let name := text.takeWhile fun c => !isBlank c
  let rest := text.dropWhile fun c => !isBlank c
  if text = [] then .ok []
  else if name = rawDirective then do
    match ← parseOperands rest with
    | [w] => return [← fit 64 w]
    | _ => throw .wrongOperands
  else match opcodeNamed name with
    | some op => do return [← assembleOp op (← parseOperands rest)]
    | none =>
      match pseudoNamed name rest with
      | some p => do return (← p).expand.map encode
      | none => .error .unknownMnemonic

/-- The command words of a source text, one command a line (R68). -/
def assemble (source : List Char) : Except AsmError (List Command) := do
  return (← (cut '\n' source).mapM assembleLine).flatten

end Sys2Proof.Machine
end

