-- ==== Sys2Proof/Safety.lean ====
section
/-! DEFINITION. What a good state and a good run are, and the words the statements are written in. Where it can, a
definition here says a rule a second time, in the spec's terms, instead of calling the model's own helper. -/

namespace Sys2Proof.Machine

/-- What the spec promises of the registers in every state the block can be in: `PLEN` is 0, 4 or 6, the bytes of PATCH
that it does not cover are 0 (R25), and ERR holds one of the codes 0 to 6 (R27, R170). -/
structure State.Inv (s : State) : Prop where
  plen_legal : s.plen = 0#3 ∨ s.plen = 4#3 ∨ s.plen = 6#3
  no_patch : s.plen = 0#3 → s.patch = ⟨0#8, 0#8, 0#8, 0#8, 0#8, 0#8⟩
  binary_patch : s.plen = 4#3 → s.patch.b4 = 0#8 ∧ s.patch.b5 = 0#8
  err_legal : s.err.toNat ≤ 6

/-- Two states that hold the same in every register of R20 other than ERR. -/
def SameButErr (s t : State) : Prop :=
  t.acc = s.acc ∧ t.patch = s.patch ∧ t.plen = s.plen ∧ t.alpha = s.alpha ∧ t.out = s.out

/-- Byte value `b` is a member of the alphabet: its bit is set (R26). -/
abbrev InAlphabet (A : Alphabet) (b : Byte) : Prop := A.getLsbD b.toNat = true

/-- How many members an alphabet has, counted as a set (R26, R29). -/
def memberCount (A : Alphabet) : Nat := (Finset.univ.filter fun j : Fin 256 => A.getLsbD j = true).card

/-- A list of byte values holds exactly the members of an alphabet, in strictly ascending order: what
`members_ascending` means (00_scope.md section 5). -/
def ListsMembers (A : Alphabet) (L : List Byte) : Prop :=
  L.Pairwise (fun a b => a.toNat < b.toNat) ∧ ∀ b, b ∈ L ↔ InAlphabet A b

/-- What the four checks of R64 and the rule of one opcode say together of every word with that opcode: RSV first, then
N, then the unused bits of IMM, each ending in its error code with no other change (R172); a word that passes has the
effect `post N IMM before after`. -/
def CommandRule (opc : Byte) (nOk : Byte → Prop) (immOk : Byte → Word → Prop)
    (post : Byte → Word → State → State → Prop) : Prop :=
  ∀ (n : Byte) (rsv : BitVec 16) (imm : Word) (s : State),
    (rsv ≠ 0#16 → issue (opc ++ n ++ rsv ++ imm) s = .next { s with err := 6#4 }) ∧
    (rsv = 0#16 → ¬ nOk n → issue (opc ++ n ++ rsv ++ imm) s = .next { s with err := 5#4 }) ∧
    (rsv = 0#16 → nOk n → ¬ immOk n imm → issue (opc ++ n ++ rsv ++ imm) s = .next { s with err := 6#4 }) ∧
    (rsv = 0#16 → nOk n → immOk n imm →
      ∃ t, issue (opc ++ n ++ rsv ++ imm) s = .next t ∧ post n imm s t)

/-- `legal_N(OPC)` by opcode number (R63). -/
def NLegal (opc n : Nat) : Prop :=
  if opc = 0x02 then n ≤ 4
  else if opc = 0x07 then n ≤ 1
  else if opc = 0x09 ∨ opc = 0x0A then n ≤ 7
  else if opc = 0x0C then True
  else n = 0

/-- No IMM bit outside the bits that may be nonzero, by opcode number (R63). -/
def ImmLegal (opc n imm : Nat) : Prop :=
  if opc = 0x01 ∨ opc = 0x04 ∨ opc = 0x05 ∨ opc = 0x09 then True
  else if opc = 0x02 then imm < 2 ^ (8 * n)
  else imm = 0

/-- Candidate number `c`, counted from 0, over the member list `L`: the first padding byte varies fastest (R122, which
counts from 1). -/
def candidatePair (L : List Byte) (c : Nat) : Byte × Byte :=
  (L.getD (c % L.length) 0#8, L.getD (c / L.length) 0#8)

/-- The suffix that a padding pair leads to (R121). -/
def candidateSuffix (s t : Word) (pad : Byte × Byte) : Quad := binSolve (crcAppend s [pad.1, pad.2]) t

/-- A padding pair is accepted: every byte of its suffix is a member (R121). -/
def CandidateAccepted (s t : Word) (A : Alphabet) (pad : Byte × Byte) : Prop :=
  ∀ b ∈ (candidateSuffix s t pad).toList, InAlphabet A b

/-- A six-byte sequence of the alphabet that forces `s` to `t` (R120). -/
def ForcesWithin (s t : Word) (A : Alphabet) (bs : List Byte) : Prop :=
  bs.length = 6 ∧ (∀ b ∈ bs, InAlphabet A b) ∧ crcAppend s bs = t

/-- Commands executed one after another, each from the state the one before it left (R46). -/
def execAll : List Instr → State → Host.Outcome State Fault Refusal
  | [], s => .next s
  | i :: is, s =>
    match exec i s with
    | .next t => execAll is t
    | .fault r => .fault r
    | .refused r => .refused r

/-- A word that is executed as one of the five read commands, the writers of OUT (R28, R154; that the word must decode
is log 9). -/
def ReadsOut (w : Command) : Prop :=
  decode w = .ok .getacc ∨ (∃ n, decode w = .ok (.getpatch n)) ∨ decode w = .ok .getstat ∨
    (∃ n, decode w = .ok (.getalpha n)) ∨ ∃ n, decode w = .ok (.table n)

/-- The run of R154 as a relation: from `s` the words, issued one after another, show the observation and end in the
final state. The observation has OUT after each read command, first read first, and nothing else (log 9). -/
inductive Observes : List Command → State → List Word → State → Prop where
  /-- No word issued: nothing observed. -/
  | none (s : State) : Observes [] s [] s
  /-- A read command: OUT after it is observed first. -/
  | read {w : Command} {ws : List Command} {s t u : State} {obs : List Word} :
      issue w s = .next t → ReadsOut w → Observes ws t obs u → Observes (w :: ws) s (t.out :: obs) u
  /-- Any other word: nothing is observed after it. -/
  | quiet {w : Command} {ws : List Command} {s t u : State} {obs : List Word} :
      issue w s = .next t → ¬ ReadsOut w → Observes ws t obs u → Observes (w :: ws) s obs u

/-! ### Source lines (R68, R69), said again without the assembler's own reader -/

/-- The value of a digit 0 to 9 or A to F. -/
def digitValue (c : Char) : Nat := if c.toNat ≤ '9'.toNat then c.toNat - '0'.toNat else c.toNat - 'A'.toNat + 10

/-- A decimal digit. -/
def IsDecDigit (c : Char) : Prop := '0'.toNat ≤ c.toNat ∧ c.toNat ≤ '9'.toNat

/-- A hexadecimal digit as the spec writes it, in upper case (the other case is log 7). -/
def IsHexDigit (c : Char) : Prop := IsDecDigit c ∨ ('A'.toNat ≤ c.toNat ∧ c.toNat ≤ 'F'.toNat)

/-- A number as R68 writes it: decimal, or hexadecimal with the prefix 0x, the most significant digit first. -/
def Numeral (cs : List Char) (v : Nat) : Prop :=
  (cs ≠ [] ∧ (∀ c ∈ cs, IsDecDigit c) ∧ v = Nat.ofDigits 10 (cs.map digitValue).reverse) ∨
  ∃ ds, cs = '0' :: 'x' :: ds ∧ ds ≠ [] ∧ (∀ c ∈ ds, IsHexDigit c) ∧ v = Nat.ofDigits 16 (ds.map digitValue).reverse

/-- How a line may end after its last operand: at once, or in a comment (R68). -/
def LineEnd (tail : List Char) : Prop := tail = [] ∨ ∃ text, tail = ';' :: text ∨ tail = ' ' :: ';' :: text

/-- A command word by its four fields (R61). -/
def fieldsWord (opc n : Nat) (imm : Nat) : Command := BitVec.ofNat 8 opc ++ BitVec.ofNat 8 n ++ 0#16 ++ BitVec.ofNat 32 imm

/-- The mnemonics with no operand and their opcodes (R63, R68). -/
def plainMnemonics : List (String × Nat) :=
  [("NOP", 0x00), ("GETACC", 0x03), ("APPLYP", 0x06), ("GETSTAT", 0x08), ("DEFALPHA", 0x0B)]

/-- The mnemonics whose one operand is IMM (R63, R68). -/
def immMnemonics : List (String × Nat) := [("SET", 0x01), ("SOLVEB", 0x04), ("SOLVEA", 0x05)]

/-- The mnemonics whose one operand is N (R63, R68). -/
def nMnemonics : List (String × Nat) := [("GETPATCH", 0x07), ("GETALPHA", 0x0A), ("TABLE", 0x0C)]

/-- The mnemonics with both operands, N first (R63, R68). -/
def nImmMnemonics : List (String × Nat) := [("APPEND", 0x02), ("SETALPHA", 0x09)]

/-- The words of APPENDS for the bytes of a text (R69): `APPEND 0, 0` for none; else word k carries bytes 4k to 4k+3, as
many as there are, the first in IMM[7:0] (R43). -/
def appendsWords (bytes : List Nat) : List Command :=
  if bytes = [] then [fieldsWord 0x02 0 0]
  else (List.range ((bytes.length + 3) / 4)).map fun k =>
    fieldsWord 0x02 (min 4 (bytes.length - 4 * k)) (Nat.ofDigits 256 ((bytes.drop (4 * k)).take 4))

end Sys2Proof.Machine
end

