-- ==== Sys2Proof/Certificates/Slice0/Obligations.lean ====
section
/-! DEFINITION. The statements for the provers. -/

open Sys2Proof Sys2Proof.Machine

/-! ## Encoding and decoding (spec/30_encoding.md) -/

/-- Every well-formed command is read back from its word, every operand at every value its field admits (R61, R63,
R64). -/
def Obligations.DecodeReadsBackEveryEncodedCommand : Prop :=
  ∀ i : Instr, i.wf = true → decode (encode i) = .ok i

/-- A legal word is the word of the command it decodes to, and that command is well-formed: no bit of a legal word is
dropped and no two legal words mean the same command (R65). -/
def Obligations.EncodeRestoresEveryLegalWord : Prop :=
  ∀ (c : Command) (i : Instr), decode c = .ok i → i.wf = true ∧ encode i = c

/-- The legal words are exactly those that match a row of the opcode table under its mask and constraints; the row is
the only one, and it is the row of the command decoded (R65). -/
def Obligations.LegalWordsMatchExactlyOneTableRow : Prop :=
  ∀ c : Command,
    ((∃ i, decode c = .ok i) ↔ ∃ r ∈ opcodeTable, r.accepts c = true) ∧
    (∀ i, decode c = .ok i → ∀ r ∈ opcodeTable, r.accepts c = true → r.op = i.opcode) ∧
    (∀ r ∈ opcodeTable, ∀ r' ∈ opcodeTable, r.accepts c = true → r'.accepts c = true → r = r')

/-- The four checks of R64 in their order over the raw fields of any word, and what a word that passes runs: the command
with that opcode number and those operands. An opcode above 0x0C is illegal whatever the other fields hold (R171). -/
def Obligations.DecodeChecksDecideInOrder : Prop :=
  ∀ (opc n : Byte) (rsv : BitVec 16) (imm : Word) (s : State),
    (0x0C < opc.toNat → issue (opc ++ n ++ rsv ++ imm) s = .next { s with err := 4#4 }) ∧
    (opc.toNat ≤ 0x0C → rsv ≠ 0#16 → issue (opc ++ n ++ rsv ++ imm) s = .next { s with err := 6#4 }) ∧
    (opc.toNat ≤ 0x0C → rsv = 0#16 → ¬ NLegal opc.toNat n.toNat →
      issue (opc ++ n ++ rsv ++ imm) s = .next { s with err := 5#4 }) ∧
    (opc.toNat ≤ 0x0C → rsv = 0#16 → NLegal opc.toNat n.toNat → ¬ ImmLegal opc.toNat n.toNat imm.toNat →
      issue (opc ++ n ++ rsv ++ imm) s = .next { s with err := 6#4 }) ∧
    (opc.toNat ≤ 0x0C → rsv = 0#16 → NLegal opc.toNat n.toNat → ImmLegal opc.toNat n.toNat imm.toNat →
      ∃ i : Instr, i.opcode.value = opc ∧ i.fieldN = n ∧ i.fieldImm = imm ∧
        issue (opc ++ n ++ rsv ++ imm) s = exec i s)

/-- Every word of the worked encodings of spec/30_encoding.md section 7: the sixteen legal ones decode to the commands
they stand for, and the four illegal ones only write the error that the section names to ERR. -/
def Obligations.WorkedEncodingsDecode : Prop :=
  decode 0x0000000000000000#64 = .ok .nop ∧
  decode 0x0100000000000007#64 = .ok (.set 0x00000007#32) ∧
  decode 0x01000000FFFFFFFF#64 = .ok (.set 0xFFFFFFFF#32) ∧
  decode 0x0204000034333231#64 = .ok (.append 4#8 0x34333231#32) ∧
  decode 0x0201000000000039#64 = .ok (.append 1#8 0x39#32) ∧
  decode 0x0200000000000000#64 = .ok (.append 0#8 0#32) ∧
  decode 0x0300000000000000#64 = .ok .getacc ∧
  decode 0x0400000044F2B129#64 = .ok (.solveb 0x44F2B129#32) ∧
  decode 0x0500000044F2B129#64 = .ok (.solvea 0x44F2B129#32) ∧
  decode 0x0600000000000000#64 = .ok .applyp ∧
  decode 0x0701000000000000#64 = .ok (.getpatch 1#1) ∧
  decode 0x0800000000000000#64 = .ok .getstat ∧
  decode 0x090300007FFFFFFF#64 = .ok (.setalpha 3#3 0x7FFFFFFF#32) ∧
  decode 0x0A02000000000000#64 = .ok (.getalpha 2#3) ∧
  decode 0x0B00000000000000#64 = .ok .defalpha ∧
  decode 0x0CFF000000000000#64 = .ok (.table 255#8) ∧
  ∀ s : State,
    issue 0x0D00000000000000#64 s = .next { s with err := 4#4 } ∧
    issue 0x0205000000000000#64 s = .next { s with err := 5#4 } ∧
    issue 0x0201000000000100#64 s = .next { s with err := 6#4 } ∧
    issue 0x0300000100000000#64 s = .next { s with err := 6#4 }

/-! ## The step (spec/30_encoding.md R60, R67; spec/20_memory.md R46) -/

/-- The next word the host issues is taken off the port and, where it decodes, executed; where it does not, ERR takes
the failed check's code and nothing else changes (R67). That the host's issuing is a list which a step reads from its
head is the model's choice of form (log 2). -/
def Obligations.StepRunsTheDecodedCommand : Prop :=
  ∀ (s : State) (w : Command) (rest : List HostAction), s.port = .command w :: rest →
    (∀ i, decode w = .ok i → step s = exec i { s with port := rest }) ∧
    (∀ e, decode w = .error e → step s = .next { s with port := rest, err := (errOfDecode e).code })

/-- Every step ends in a next state, and so does every run of any length: no fault, no refusal, no stuck state (R67,
R154). A step with nothing issued is the model's (log 4), as is the list that steps read from (log 2). -/
def Obligations.EveryStepAndEveryRunCompletes : Prop :=
  (∀ s : State, ∃ t, step s = .next t) ∧
  ∀ (k : Nat) (s : State), ∃ t : State, Host.Core.run Sys2Proof.core k s = .next t

/-- A command sees nothing of what the host issues after it: with other actions pending the same step gives the same
registers (R46 says so of commands). THE MODEL'S CHOICES are in it as well: the host's actions, block reset among them,
are a list that a step reads from its head (log 2), and what stands later in it stays there after any step, a reset too
(log 6). R46 says neither. -/
def Obligations.StepIgnoresLaterActions : Prop :=
  ∀ (s t : State) (a : HostAction) (later later' : List HostAction),
    step { s with port := a :: later } = .next t →
      t.port = later ∧ step { s with port := a :: later' } = .next { t with port := later' }

/-- THE MODEL'S CHOICE (log 4; the spec does not say what the block does between commands): with no host action pending
a step changes nothing. -/
def Obligations.BlockWaitsUnchangedForTheHost : Prop :=
  ∀ s : State, s.port = [] → step s = .next s

/-- The words of a run, put on the port, lead in as many steps to the final state of the run (R154). The port is the
model's form of the host's issuing (log 2). -/
def Obligations.StepsFromThePortAreTheRun : Prop :=
  ∀ (ws : List Command) (s : State) (obs : List Word) (t : State),
    issueAll ws { s with port := [] } = .next (obs, t) →
      Host.Core.run Sys2Proof.core ws.length { s with port := ws.map .command } = .next t

/-- A run shows OUT after exactly the words executed as GETACC, GETPATCH, GETSTAT, GETALPHA or TABLE, first read first, and
ends in the state that issuing the words one after another leads to (R154). That a word with a read opcode which fails
decoding counts as no read command is the model's inference (log 9). -/
def Obligations.RunObservesOutAfterEachRead : Prop :=
  ∀ (ws : List Command) (s : State), ∃ (obs : List Word) (u : State),
    issueAll ws s = .next (obs, u) ∧ Observes ws s obs u

/-! ## Invariants and reset (spec/10_state.md, spec/70_reset_and_hazards.md) -/

/-- Every step keeps the register invariant: PLEN stays 0, 4 or 6 with the bytes it does not cover 0, and ERR stays one
of the codes 0 to 6 (R25, R27). -/
def Obligations.EveryStepKeepsTheRegisterInvariant : Prop :=
  ∀ s t : State, s.Inv → step s = .next t → t.Inv

/-- The register invariant holds after block reset, whatever value the accumulator takes (R190). -/
def Obligations.ResetMeetsTheRegisterInvariant : Prop :=
  State.reset.Inv ∧ ∀ v : Word, (State.afterReset v).Inv

/-- Block reset, asserted between commands or during any command (R191), leaves the registers as R190 lists them: no
patch, the default alphabet, ERR OK, OUT 0, status word 0x005F0000, whatever the state before and the command in
progress. Nothing is said of ACC, which R190 leaves unspecified. THE MODEL'S CHOICES in it: the reset is an action on
the list of what the host does next (log 2), and the host's later actions stay on that list after a reset (log 6), which
is the conjunct on the port; R190 and R191 speak of neither. -/
def Obligations.BlockResetLeavesTheResetState : Prop :=
  ∀ (s : State) (c : Option Command) (rest : List HostAction), s.port = .reset c :: rest →
    ∃ t, step s = .next t ∧ t.port = rest ∧ t.patch = ⟨0#8, 0#8, 0#8, 0#8, 0#8, 0#8⟩ ∧ t.plen = 0#3 ∧
      (∀ j, j < 256 → (t.alpha.getLsbD j = true ↔ 0x20 ≤ j ∧ j ≤ 0x7E)) ∧ t.err = 0#4 ∧ t.out = 0#32 ∧
      statusWord t = 0x005F0000#32

/-- The state right after reset holds R190's values whatever value the accumulator takes, and the machine's reset state
is the one for some such value (which one is left open, R5 and log 1). -/
def Obligations.ResetStateHoldsTheListedValues : Prop :=
  (∃ v : Word, State.reset = State.afterReset v) ∧ ∀ v : Word,
    (State.afterReset v).patch = ⟨0#8, 0#8, 0#8, 0#8, 0#8, 0#8⟩ ∧ (State.afterReset v).plen = 0#3 ∧
    (∀ j, j < 256 → ((State.afterReset v).alpha.getLsbD j = true ↔ 0x20 ≤ j ∧ j ≤ 0x7E)) ∧
    (State.afterReset v).err = 0#4 ∧ (State.afterReset v).out = 0#32 ∧
    statusWord (State.afterReset v) = 0x005F0000#32

/-- After a SET, nothing a host can read or do depends on the accumulator's reset value: the rest of the run is the same
for every such value (R5, R192). -/
def Obligations.SetHidesTheAccumulatorResetValue : Prop :=
  ∀ (v a b : Word) (ws : List Command),
    issueAll (encode (.set v) :: ws) (State.afterReset a) = issueAll (encode (.set v) :: ws) (State.afterReset b)

/-! ## Which command writes which register (spec/10_state.md section 1) -/

/-- ACC is written only by SET, APPEND and APPLYP (R21). -/
def Obligations.OnlySetAppendApplypChangeAcc : Prop :=
  ∀ (i : Instr) (s t : State), exec i s = .next t → t.acc ≠ s.acc →
    (∃ v, i = .set v) ∨ (∃ n v, i = .append n v) ∨ i = .applyp

/-- PATCH and PLEN are written only by SOLVEB and SOLVEA (R25). -/
def Obligations.OnlyTheSolversChangeThePatch : Prop :=
  ∀ (i : Instr) (s t : State), exec i s = .next t → (t.patch ≠ s.patch ∨ t.plen ≠ s.plen) →
    (∃ v, i = .solveb v) ∨ ∃ v, i = .solvea v

/-- ALPHA is written only by SETALPHA and DEFALPHA (R26). -/
def Obligations.OnlySetalphaDefalphaChangeAlpha : Prop :=
  ∀ (i : Instr) (s t : State), exec i s = .next t → t.alpha ≠ s.alpha →
    (∃ n v, i = .setalpha n v) ∨ i = .defalpha

/-- OUT is written only by the five read commands, and by no word that ends in a decode error (R28). -/
def Obligations.OnlyReadCommandsChangeOut : Prop :=
  ∀ (w : Command) (s t : State), issue w s = .next t → t.out ≠ s.out →
    decode w = .ok .getacc ∨ (∃ n, decode w = .ok (.getpatch n)) ∨ decode w = .ok .getstat ∨
      (∃ n, decode w = .ok (.getalpha n)) ∨ ∃ n, decode w = .ok (.table n)

/-- ERR reports the most recent command other than NOP and GETSTAT, and is not sticky: those two keep it, and after any
other word, legal or not, nothing is left of what it held (R27, R178). -/
def Obligations.ErrReportsTheLastCommandOnly : Prop :=
  ∀ (w : Command) (s t : State), issue w s = .next t →
    ((decode w = .ok .nop ∨ decode w = .ok .getstat) → t.err = s.err) ∧
    (decode w ≠ .ok .nop → decode w ≠ .ok .getstat → ∀ e : BitVec 4, issue w { s with err := e } = .next t)

/-- No command changes what the host does next, nor the count of resets. Both are the model's own fields (logs 2 and 1);
that a command leaves them alone is the model's form of R155, where the host alone decides what it sends. -/
def Obligations.CommandsLeaveTheHostAlone : Prop :=
  ∀ (w : Command) (s t : State), issue w s = .next t → t.port = s.port ∧ t.resets = s.resets

/-- ACC is read only by APPEND, GETACC, SOLVEB, SOLVEA and APPLYP: what any other command does is the same whatever ACC
holds (R21). -/
def Obligations.OtherCommandsDoNotReadAcc : Prop :=
  ∀ (i : Instr) (s t : State) (a : Word), exec i s = .next t →
    (∀ n v, i ≠ .append n v) → i ≠ .getacc → (∀ v, i ≠ .solveb v) → (∀ v, i ≠ .solvea v) → i ≠ .applyp →
      (∀ v, i = .set v → exec i { s with acc := a } = .next t) ∧
      ((∀ v, i ≠ .set v) → exec i { s with acc := a } = .next { t with acc := a })

/-- A second read with no command in between returns the same OUT: the state after it is the state before it (R45). -/
def Obligations.ReadCommandsAreIdempotent : Prop :=
  ∀ (i : Instr) (s t : State), exec i s = .next t →
    (i = .getacc ∨ (∃ n, i = .getpatch n) ∨ (∃ n, i = .getalpha n) ∨ (∃ n, i = .table n) ∨ i = .getstat) →
      exec i t = .next t

/-- The commands with no error of their own end with ERR OK, or keep ERR if they do not write it, in every state (R174);
APPEND with its operands legal. -/
def Obligations.CommandsWithoutErrorsOfTheirOwn : Prop :=
  ∀ (i : Instr) (s : State), i.wf = true → (∀ v, i ≠ .solvea v) → i ≠ .applyp →
    ∃ t, exec i s = .next t ∧ t.err = if i = .nop ∨ i = .getstat then s.err else 0#4

/-! ## CRC engine commands (spec/40_crc_engine.md) -/

/-- SET loads the accumulator with its operand and reports OK; nothing else changes (R81). -/
def Obligations.SetLoadsTheAccumulator : Prop :=
  CommandRule 0x01#8 (fun n => n = 0#8) (fun _ _ => True)
    (fun _ imm s t => t = { s with acc := imm, err := 0#4 }) ∧
  ∀ (imm : Word) (s : State), exec (.set imm) s = .next { s with acc := imm, err := 0#4 }

/-- APPEND extends the accumulator by the N bytes of IMM, byte j from bits 8j+7..8j, one step each; N above 4 is
ILLEGAL_OPERAND and a set IMM bit at or above 8N is RESERVED_NONZERO (R82). R82 says this of words. The two clauses on
`exec` for N above 4 and for IMM at or above 2^(8N) speak of terms that no legal word stands for; that they end as the
word with those fields does is THE MODEL'S INFERENCE (log 8). -/
def Obligations.AppendExtendsTheAccumulator : Prop :=
  CommandRule 0x02#8 (fun n => n.toNat ≤ 4) (fun n imm => imm.toNat < 2 ^ (8 * n.toNat))
    (fun n imm s t => t = { s with
      acc := ((List.range n.toNat).map fun j => imm.extractLsb' (8 * j) 8).foldl crcStep s.acc, err := 0#4 }) ∧
  ∀ (n : Byte) (imm : Word) (s : State),
    (4 < n.toNat → exec (.append n imm) s = .next { s with err := 5#4 }) ∧
    (n.toNat ≤ 4 → 2 ^ (8 * n.toNat) ≤ imm.toNat → exec (.append n imm) s = .next { s with err := 6#4 }) ∧
    (n.toNat ≤ 4 → imm.toNat < 2 ^ (8 * n.toNat) → exec (.append n imm) s = .next { s with
      acc := ((List.range n.toNat).map fun j => imm.extractLsb' (8 * j) 8).foldl crcStep s.acc, err := 0#4 })

/-- GETACC copies the raw accumulator to OUT and reports OK; nothing else changes (R83). -/
def Obligations.GetaccReadsTheAccumulator : Prop :=
  CommandRule 0x03#8 (fun n => n = 0#8) (fun _ imm => imm = 0#32)
    (fun _ _ s t => t = { s with out := s.acc, err := 0#4 }) ∧
  ∀ s : State, exec .getacc s = .next { s with out := s.acc, err := 0#4 }

/-- TABLE reads LUT[N], eight single-bit divisions starting from the index (R23), and reports OK; nothing else changes.
Entry 0 is 0 (R84). That entry 128 is the polynomial itself is the spec's own derivation, marked '[derived: from rule
R23 of 10_state.md]' in the corner cases of R84. -/
def Obligations.TableReadsTheGeneratedEntry : Prop :=
  CommandRule 0x0C#8 (fun _ => True) (fun _ imm => imm = 0#32)
    (fun n _ s t => t = { s with out := lut n, err := 0#4 }) ∧
  (∀ (n : Byte) (s : State), exec (.table n) s = .next { s with out := lut n, err := 0#4 }) ∧
  (∀ n : Byte, lut n = genStep^[8] (n.setWidth 32)) ∧
  (∀ c : Word, genStep c = if c.getLsbD 0 = true then (c >>> 1) ^^^ 0xEDB88320#32 else c >>> 1) ∧
  lut 0#8 = 0#32 ∧ lut 128#8 = 0xEDB88320#32

/-- One byte of the table-driven update is eight single-bit reflected divisions of the accumulator with the byte XORed
into its low bits: the table computes the polynomial division it was made for (from R23 and R80). -/
def Obligations.TableUpdateIsBitSerialDivision : Prop :=
  ∀ (a : Word) (b : Byte), crcStep a b = genStep^[8] (a ^^^ b.setWidth 32)

/-- The laws of the update that the spec derives in its section 3 on laws: concatenation, table linearity and the affine
split into a part that depends on the accumulator alone and a part that depends on the bytes alone (the spec marks them
as its own derivation). -/
def Obligations.CrcUpdateIsAffine : Prop :=
  (∀ (a : Word) (s t : List Byte), crcAppend a (s ++ t) = crcAppend (crcAppend a s) t) ∧
  (∀ x y : Byte, lut (x ^^^ y) = lut x ^^^ lut y) ∧
  ∀ (a : Word) (s : List Byte), crcAppend a s = crcAppend a (List.replicate s.length 0#8) ^^^ crcAppend 0#32 s

/-- After four bytes the accumulator is f(a) XOR g(s) with f a bijection on states and g one from four-byte sequences to
states (the spec's derived shift-out law). -/
def Obligations.FourBytesMixTheWholeAccumulator : Prop :=
  ∃ (f : Word → Word) (g : Quad → Word), Function.Bijective f ∧ Function.Bijective g ∧
    ∀ (a : Word) (q : Quad), crcAppend a q.toList = f a ^^^ g q

/-! ## Binary forcing (spec/41_binary_forcing.md) -/

/-- For every state and target there is exactly one four-byte sequence that forces the target, and `binSolve` is it
(R100). -/
def Obligations.BinaryPatchExistsAndIsUnique : Prop :=
  ∀ S T : Word, crcAppend S (binSolve S T).toList = T ∧
    ∀ P : List Byte, P.length = 4 → crcAppend S P = T → P = (binSolve S T).toList

/-- The four indices recovered from a target rebuild it, whatever state the steps start from (the reason the spec gives
for its index recovery). -/
def Obligations.BinaryIndicesRebuildTheTarget : Prop :=
  ∀ T : Word, lut (binIndices T).b3 ^^^ (lut (binIndices T).b2 >>> 8) ^^^ (lut (binIndices T).b1 >>> 16) ^^^
    (lut (binIndices T).b0 >>> 24) = T

/-- The source's three-step method gives the same patch: solving from 0 for the target less what the state alone
contributes (the spec's derived rule on it). -/
def Obligations.SourceMethodGivesTheSamePatch : Prop :=
  ∀ S T : Word, binSolve S T = binSolve 0#32 (T ^^^ crcAppend S [0#8, 0#8, 0#8, 0#8])

/-- SOLVEB stores the four bytes that force its target from ACC, two zero bytes after them, PLEN 4 and OK, and changes
nothing else; a valid SOLVEB never fails (R104). -/
def Obligations.SolvebStoresTheForcingPatch : Prop :=
  CommandRule 0x04#8 (fun n => n = 0#8) (fun _ _ => True)
    (fun _ imm s t => ∃ p0 p1 p2 p3 : Byte, crcAppend s.acc [p0, p1, p2, p3] = imm ∧
      t = { s with patch := ⟨p0, p1, p2, p3, 0#8, 0#8⟩, plen := 4#3, err := 0#4 }) ∧
  ∀ (imm : Word) (s : State), ∃ p0 p1 p2 p3 : Byte, crcAppend s.acc [p0, p1, p2, p3] = imm ∧
    exec (.solveb imm) s = .next { s with patch := ⟨p0, p1, p2, p3, 0#8, 0#8⟩, plen := 4#3, err := 0#4 }

/-- After SOLVEB, an APPLYP that finds ACC and the patch as SOLVEB left them reaches the target; the commands between may
have changed anything else (the spec's derived round trip). -/
def Obligations.BinaryRoundTripReachesTheTarget : Prop :=
  ∀ (T : Word) (s : State), ∃ s1, exec (.solveb T) s = .next s1 ∧
    ∀ u : State, u.acc = s1.acc → u.patch = s1.patch → u.plen = s1.plen →
      exec .applyp u = .next { u with acc := T, err := 0#4 }

/-- SOLVEB's result depends only on ACC and the target (R106). -/
def Obligations.SolvebDependsOnlyOnAccAndTarget : Prop :=
  ∀ (T : Word) (s s' t t' : State), s.acc = s'.acc → exec (.solveb T) s = .next t → exec (.solveb T) s' = .next t' →
    t.patch = t'.patch ∧ t.plen = t'.plen ∧ t.err = t'.err

/-! ## Printable forcing (spec/42_printable_forcing.md) -/

/-- SOLVEA in every state: with an empty alphabet INVALID_ALPHABET and no patch; with some six-byte sequence of the
alphabet forcing the target, such a patch is stored with PLEN 6 and OK; with none, NO_SOLUTION and no patch. ACC, ALPHA
and OUT are unchanged throughout (R120, R123, R124, R126, R127). -/
def Obligations.SolveaFindsAPatchExactlyWhenOneExists : Prop :=
  ∀ (T : Word) (s : State),
    (memberCount s.alpha = 0 → exec (.solvea T) s = .next
      { s with patch := ⟨0#8, 0#8, 0#8, 0#8, 0#8, 0#8⟩, plen := 0#3, err := 2#4 }) ∧
    (memberCount s.alpha ≠ 0 → (¬ ∃ bs, ForcesWithin s.acc T s.alpha bs) → exec (.solvea T) s = .next
      { s with patch := ⟨0#8, 0#8, 0#8, 0#8, 0#8, 0#8⟩, plen := 0#3, err := 1#4 }) ∧
    ((∃ bs, ForcesWithin s.acc T s.alpha bs) → ∃ p : Patch, ForcesWithin s.acc T s.alpha p.toList ∧
      exec (.solvea T) s = .next { s with patch := p, plen := 6#3, err := 0#4 })

/-- A SOLVEA word: its decode errors, and otherwise what the search answers: the patch with PLEN 6 and OK, or no patch
with INVALID_ALPHABET or NO_SOLUTION (R127). -/
def Obligations.SolveaWritesWhatTheSearchAnswers : Prop :=
  CommandRule 0x05#8 (fun n => n = 0#8) (fun _ _ => True)
    (fun _ imm s t =>
      (∃ p, ascSolve s.acc imm s.alpha = .ok p ∧ t = { s with patch := p, plen := 6#3, err := 0#4 }) ∨
      (ascSolve s.acc imm s.alpha = .invalidAlphabet ∧
        t = { s with patch := ⟨0#8, 0#8, 0#8, 0#8, 0#8, 0#8⟩, plen := 0#3, err := 2#4 }) ∨
      (ascSolve s.acc imm s.alpha = .noSolutionFound ∧
        t = { s with patch := ⟨0#8, 0#8, 0#8, 0#8, 0#8, 0#8⟩, plen := 0#3, err := 1#4 }))

/-- The search returns the first accepted candidate of the enumeration, first padding byte fastest, both in ascending
order over the members, among at most |A|^2 candidates; it reports no solution exactly when the alphabet has members and
every candidate is rejected, and an invalid alphabet exactly when it has none (R121, R122, R123, R125). -/
def Obligations.SearchReturnsTheFirstCandidate : Prop :=
  ∀ (S T : Word) (A : Alphabet) (L : List Byte), ListsMembers A L →
    (∀ p : Patch, ascSolve S T A = .ok p ↔ ∃ c, c < L.length ^ 2 ∧ CandidateAccepted S T A (candidatePair L c) ∧
      (∀ c', c' < c → ¬ CandidateAccepted S T A (candidatePair L c')) ∧
      p.toList = [(candidatePair L c).1, (candidatePair L c).2] ++ (candidateSuffix S T (candidatePair L c)).toList) ∧
    (ascSolve S T A = .noSolutionFound ↔
      L ≠ [] ∧ ∀ c, c < L.length ^ 2 → ¬ CandidateAccepted S T A (candidatePair L c)) ∧
    (ascSolve S T A = .invalidAlphabet ↔ L = [])

/-- With the full alphabet the first candidate, padding 00 00, always succeeds (the spec's derived consequence). -/
def Obligations.FullAlphabetSucceedsAtTheFirstCandidate : Prop :=
  ∀ (S T : Word) (A : Alphabet), (∀ b, InAlphabet A b) → ∃ p, ascSolve S T A = .ok p ∧ p.b0 = 0#8 ∧ p.b1 = 0#8

/-- An alphabet of 40 or fewer members cannot reach every target from a given state (the spec's derived counting
bound). -/
def Obligations.SmallAlphabetMissesSomeTarget : Prop :=
  ∀ (S : Word) (A : Alphabet), memberCount A ≤ 40 → ∃ T : Word, ∀ p : Patch, ascSolve S T A ≠ .ok p

/-- After a SOLVEA that reports OK, an APPLYP that finds ACC and the patch as SOLVEA left them reaches the target, and
every byte appended is in the alphabet that SOLVEA used (the spec's derived round trip). -/
def Obligations.PrintableRoundTripReachesTheTarget : Prop :=
  ∀ (T : Word) (s s1 u : State), exec (.solvea T) s = .next s1 → s1.err = 0#4 →
    u.acc = s1.acc → u.patch = s1.patch → u.plen = s1.plen →
      exec .applyp u = .next { u with acc := T, err := 0#4 } ∧ u.plen = 6#3 ∧
        ∀ b ∈ u.patch.toList, InAlphabet s.alpha b

/-- A patch that a solver stored forces its target from no other accumulator value: applied after ACC has changed, it
misses the target (the spec's derived stale-patch hazard). -/
def Obligations.StalePatchMissesTheTarget : Prop :=
  ∀ (T : Word) (s s1 u t : State) (i : Instr), (i = .solveb T ∨ i = .solvea T) → exec i s = .next s1 → s1.plen ≠ 0#3 →
    u.patch = s1.patch → u.plen = s1.plen → u.acc ≠ s1.acc → exec .applyp u = .next t → t.acc ≠ T

/-- SETALPHA writes bits 32N to 32N+31 of the alphabet from IMM, keeps the other 224, reports OK and changes nothing else
(R128). -/
def Obligations.SetalphaWritesOneWord : Prop :=
  CommandRule 0x09#8 (fun n => n.toNat ≤ 7) (fun _ _ => True)
    (fun n imm s t => (∀ k, k < 256 → t.alpha.getLsbD k =
        if k / 32 = n.toNat then imm.getLsbD (k % 32) else s.alpha.getLsbD k) ∧
      t = { s with alpha := t.alpha, err := 0#4 }) ∧
  ∀ (n : BitVec 3) (imm : Word) (s : State), ∃ t, exec (.setalpha n imm) s = .next t ∧
    (∀ k, k < 256 → t.alpha.getLsbD k =
      if k / 32 = n.toNat then imm.getLsbD (k % 32) else s.alpha.getLsbD k) ∧
    t = { s with alpha := t.alpha, err := 0#4 }

/-- GETALPHA reads bits 32N to 32N+31 of the alphabet into OUT, reports OK and changes nothing else (R129). -/
def Obligations.GetalphaReadsOneWord : Prop :=
  CommandRule 0x0A#8 (fun n => n.toNat ≤ 7) (fun _ imm => imm = 0#32)
    (fun n _ s t => (∀ j, j < 32 → t.out.getLsbD j = s.alpha.getLsbD (32 * n.toNat + j)) ∧
      t = { s with out := t.out, err := 0#4 }) ∧
  ∀ (n : BitVec 3) (s : State), ∃ t, exec (.getalpha n) s = .next t ∧
    (∀ j, j < 32 → t.out.getLsbD j = s.alpha.getLsbD (32 * n.toNat + j)) ∧
    t = { s with out := t.out, err := 0#4 }

/-- DEFALPHA makes exactly the byte values 0x20 to 0x7E members, 95 of them, reports OK and changes nothing else (R130). -/
def Obligations.DefalphaLoadsPrintableAscii : Prop :=
  CommandRule 0x0B#8 (fun n => n = 0#8) (fun _ imm => imm = 0#32)
    (fun _ _ s t => (∀ j, j < 256 → (t.alpha.getLsbD j = true ↔ 0x20 ≤ j ∧ j ≤ 0x7E)) ∧
      ((statusWord t).extractLsb' 16 9).toNat = 95 ∧ t = { s with alpha := t.alpha, err := 0#4 }) ∧
  ∀ s : State, ∃ t, exec .defalpha s = .next t ∧
    (∀ j, j < 256 → (t.alpha.getLsbD j = true ↔ 0x20 ≤ j ∧ j ≤ 0x7E)) ∧
    ((statusWord t).extractLsb' 16 9).toNat = 95 ∧ t = { s with alpha := t.alpha, err := 0#4 }

/-! ## Interface commands (spec/43_interface.md) -/

/-- NOP changes nothing, ERR included; a word with opcode 0 and any field set is not a NOP (R150). -/
def Obligations.NopChangesNothing : Prop :=
  CommandRule 0x00#8 (fun n => n = 0#8) (fun _ imm => imm = 0#32) (fun _ _ s t => t = s) ∧
  ∀ s : State, exec .nop s = .next s

/-- GETPATCH 0 reads PATCH[0..3] and GETPATCH 1 reads PATCH[4..5] below two zero bytes, each byte k of the word in bits
8k+7..8k; ERR is OK, whatever PLEN is, and nothing else changes (R151, R43). In the states that the register invariant
admits, both words read as zero with no patch stored, and word 1 after a binary patch. -/
def Obligations.GetpatchReadsThePackedBytes : Prop :=
  CommandRule 0x07#8 (fun n => n.toNat ≤ 1) (fun _ imm => imm = 0#32)
    (fun n _ s t => t = { s with out := t.out, err := 0#4 } ∧
      (List.range 4).map (fun k => t.out.extractLsb' (8 * k) 8) =
        if n = 0#8 then [s.patch.b0, s.patch.b1, s.patch.b2, s.patch.b3] else [s.patch.b4, s.patch.b5, 0#8, 0#8]) ∧
  (∀ (n : BitVec 1) (s : State), ∃ t, exec (.getpatch n) s = .next t ∧ t = { s with out := t.out, err := 0#4 } ∧
    (List.range 4).map (fun k => t.out.extractLsb' (8 * k) 8) =
      if n = 0#1 then [s.patch.b0, s.patch.b1, s.patch.b2, s.patch.b3] else [s.patch.b4, s.patch.b5, 0#8, 0#8]) ∧
  (∀ (n : BitVec 1) (s : State), s.Inv → s.plen = 0#3 →
    exec (.getpatch n) s = .next { s with out := 0#32, err := 0#4 }) ∧
  ∀ s : State, s.Inv → s.plen = 4#3 → exec (.getpatch 1#1) s = .next { s with out := 0#32, err := 0#4 }

/-- The word GETSTAT reads: ERR in 3:0, PVALID in 4 exactly when PLEN is not 0, PLEN in 10:8, the number of members in
24:16, every reserved bit 0 (R29). -/
def Obligations.StatusWordHoldsItsFields : Prop :=
  ∀ s : State, (statusWord s).extractLsb' 0 4 = s.err ∧
    ((statusWord s).getLsbD 4 = true ↔ s.plen ≠ 0#3) ∧ (statusWord s).extractLsb' 5 3 = 0#3 ∧
    (statusWord s).extractLsb' 8 3 = s.plen ∧ (statusWord s).extractLsb' 11 5 = 0#5 ∧
    ((statusWord s).extractLsb' 16 9).toNat = memberCount s.alpha ∧ (statusWord s).extractLsb' 25 7 = 0#7

/-- GETSTAT puts the status word of the state before it into OUT and writes nothing else, ERR not either (R152). -/
def Obligations.GetstatReadsTheStatusWord : Prop :=
  CommandRule 0x08#8 (fun n => n = 0#8) (fun _ imm => imm = 0#32)
    (fun _ _ s t => t = { s with out := statusWord s }) ∧
  ∀ s : State, exec .getstat s = .next { s with out := statusWord s }

/-- APPLYP with PLEN 0 is NO_PATCH and changes nothing but ERR; otherwise ACC is extended by the first PLEN bytes of
PATCH, four for a binary patch and all six for a printable one, with OK and no other change (R153). For a PLEN of 1, 2,
3, 5 or 7, of which R153 does not speak and which the register invariant rules out, what is said is THE MODEL'S CHOICE
(log 11). -/
def Obligations.ApplypAppendsTheStoredPatch : Prop :=
  CommandRule 0x06#8 (fun n => n = 0#8) (fun _ imm => imm = 0#32)
    (fun _ _ s t =>
      (s.plen = 0#3 → t = { s with err := 3#4 }) ∧
      (s.plen ≠ 0#3 → t = { s with acc := crcAppend s.acc (s.patch.toList.take s.plen.toNat), err := 0#4 })) ∧
  ∀ s : State,
    (s.plen = 0#3 → exec .applyp s = .next { s with err := 3#4 }) ∧
    (s.plen ≠ 0#3 → exec .applyp s = .next
      { s with acc := crcAppend s.acc (s.patch.toList.take s.plen.toNat), err := 0#4 }) ∧
    (s.plen = 4#3 → exec .applyp s = .next
      { s with acc := crcAppend s.acc [s.patch.b0, s.patch.b1, s.patch.b2, s.patch.b3], err := 0#4 }) ∧
    (s.plen = 6#3 → exec .applyp s = .next { s with acc := crcAppend s.acc s.patch.toList, err := 0#4 })

/-! ## The assembler's expansions (spec/30_encoding.md R68, R69) -/

/-- APPENDS of any text, executed, extends the accumulator by the bytes of the text and reports OK (R69). -/
def Obligations.AppendsExtendsByTheWholeText : Prop :=
  ∀ (text : List Byte) (s : State), execAll (Pseudo.appends text).expand s = .next
    { s with acc := crcAppend s.acc text, err := 0#4 }

/-- ALPHACLR, executed, leaves the empty alphabet and ALPHAONE b the alphabet whose one member is b; nothing else changes
but ERR, which is OK (R69). -/
def Obligations.AlphaPseudosSetTheWholeAlphabet : Prop :=
  (∀ s : State, execAll Pseudo.alphaclr.expand s = .next { s with alpha := 0#256, err := 0#4 }) ∧
  ∀ (b : Byte) (s : State), ∃ t, execAll (Pseudo.alphaone b).expand s = .next t ∧
    (∀ b', InAlphabet t.alpha b' ↔ b' = b) ∧ t = { s with alpha := t.alpha, err := 0#4 }

/-- The operand form of each mnemonic, written out (R68): with operand values that fit, `assembleOp` gives the word with
that opcode, those values in N and IMM and every other field 0, legal or not; an operand that does not fit its field is
an assembly error. The word of a command is likewise its opcode, its N and its IMM with RSV 0 (R61). -/
def Obligations.AssemblerEmitsTheEncodedWord : Prop :=
  assembleOp .nop [] = .ok (fieldsWord 0x00 0 0) ∧
  assembleOp .getacc [] = .ok (fieldsWord 0x03 0 0) ∧
  assembleOp .applyp [] = .ok (fieldsWord 0x06 0 0) ∧
  assembleOp .getstat [] = .ok (fieldsWord 0x08 0 0) ∧
  assembleOp .defalpha [] = .ok (fieldsWord 0x0B 0 0) ∧
  (∀ v, assembleOp .set [v] = if v < 2 ^ 32 then .ok (fieldsWord 0x01 0 v) else .error .doesNotFit) ∧
  (∀ v, assembleOp .solveb [v] = if v < 2 ^ 32 then .ok (fieldsWord 0x04 0 v) else .error .doesNotFit) ∧
  (∀ v, assembleOp .solvea [v] = if v < 2 ^ 32 then .ok (fieldsWord 0x05 0 v) else .error .doesNotFit) ∧
  (∀ k, assembleOp .getpatch [k] = if k < 2 ^ 8 then .ok (fieldsWord 0x07 k 0) else .error .doesNotFit) ∧
  (∀ k, assembleOp .getalpha [k] = if k < 2 ^ 8 then .ok (fieldsWord 0x0A k 0) else .error .doesNotFit) ∧
  (∀ k, assembleOp .table [k] = if k < 2 ^ 8 then .ok (fieldsWord 0x0C k 0) else .error .doesNotFit) ∧
  (∀ k v, assembleOp .append [k, v] =
    if k < 2 ^ 8 ∧ v < 2 ^ 32 then .ok (fieldsWord 0x02 k v) else .error .doesNotFit) ∧
  (∀ k v, assembleOp .setalpha [k, v] =
    if k < 2 ^ 8 ∧ v < 2 ^ 32 then .ok (fieldsWord 0x09 k v) else .error .doesNotFit) ∧
  ∀ i : Instr, encode i = fieldsWord i.opcode.value.toNat i.fieldN.toNat i.fieldImm.toNat

/-- The source lines of R68, mnemonic by mnemonic: the mnemonic, a space, its operands separated by a comma and a space,
each a decimal or hexadecimal number, and at the end nothing or a comment. Each gives the one word with that opcode and
those operands, even one that the decoder rejects; an operand that does not fit its field is an assembly error; `.word64`
gives a raw word; lines are assembled one after another. What R68 does not say of a line is log 7; used here of it: a line
ends at a line feed, one with nothing but a comment gives no word, a space is white space, and `.word64` takes a decimal
number too. -/
def Obligations.SourceLinesAssembleToTheirWords : Prop :=
  (∀ tail, LineEnd tail →
    assembleLine tail = .ok [] ∧
    (∀ m ∈ plainMnemonics, assembleLine (m.1.toList ++ tail) = .ok [fieldsWord m.2 0 0]) ∧
    (∀ m ∈ immMnemonics, ∀ cs v, Numeral cs v → assembleLine (m.1.toList ++ ' ' :: (cs ++ tail)) =
      if v < 2 ^ 32 then .ok [fieldsWord m.2 0 v] else .error .doesNotFit) ∧
    (∀ m ∈ nMnemonics, ∀ cs k, Numeral cs k → assembleLine (m.1.toList ++ ' ' :: (cs ++ tail)) =
      if k < 2 ^ 8 then .ok [fieldsWord m.2 k 0] else .error .doesNotFit) ∧
    (∀ m ∈ nImmMnemonics, ∀ cs k ds v, Numeral cs k → Numeral ds v →
      assembleLine (m.1.toList ++ ' ' :: (cs ++ ',' :: ' ' :: (ds ++ tail))) =
        if k < 2 ^ 8 ∧ v < 2 ^ 32 then .ok [fieldsWord m.2 k v] else .error .doesNotFit) ∧
    (∀ cs v, Numeral cs v → assembleLine (".word64".toList ++ ' ' :: (cs ++ tail)) =
      if v < 2 ^ 64 then .ok [BitVec.ofNat 64 v] else .error .doesNotFit)) ∧
  (∀ line, '\n' ∉ line → assemble line = assembleLine line) ∧
  ∀ line rest ws ws', '\n' ∉ line → assembleLine line = .ok ws → assemble rest = .ok ws' →
    assemble (line ++ '\n' :: rest) = .ok (ws ++ ws')

/-- The source lines of the pseudo-instructions give the words of their expansions, written out (R69): SEED, APPENDB,
APPENDW, APPENDS of any text of ASCII characters without a quotation mark or a line feed, ALPHACLR and ALPHAONE. An
operand of APPENDW that does not fit IMM is an assembly error (R68). THE MODEL'S CHOICES in it (log 7): an operand of
APPENDB or ALPHAONE above 255 is an assembly error too, which neither R68 (256 fits IMM) nor R69 (it names 0 to 255 for
APPENDB and no range for ALPHAONE) says; a `;` inside the quotation marks starts no comment; a space is white space. -/
def Obligations.PseudoLinesAssembleToTheirExpansions : Prop :=
  ∀ tail, LineEnd tail →
    assembleLine ("SEED".toList ++ tail) = .ok [fieldsWord 0x01 0 0xFFFFFFFF] ∧
    (∀ cs b, Numeral cs b → assembleLine ("APPENDB".toList ++ ' ' :: (cs ++ tail)) =
      if b < 2 ^ 8 then .ok [fieldsWord 0x02 1 b] else .error .doesNotFit) ∧
    (∀ cs w, Numeral cs w → assembleLine ("APPENDW".toList ++ ' ' :: (cs ++ tail)) =
      if w < 2 ^ 32 then .ok [fieldsWord 0x02 4 w] else .error .doesNotFit) ∧
    (∀ text, (∀ c ∈ text, c.toNat < 128 ∧ c ≠ '"' ∧ c ≠ '\n') →
      assembleLine ("APPENDS".toList ++ ' ' :: '"' :: (text ++ '"' :: tail)) =
        .ok (appendsWords (text.map Char.toNat))) ∧
    assembleLine ("ALPHACLR".toList ++ tail) = .ok ((List.range 8).map fun n => fieldsWord 0x09 n 0) ∧
    (∀ cs b, Numeral cs b → assembleLine ("ALPHAONE".toList ++ ' ' :: (cs ++ tail)) =
      if b < 2 ^ 8 then
        .ok ((List.range 8).map fun n => fieldsWord 0x09 n (if n = b / 32 then 2 ^ (b % 32) else 0))
      else .error .doesNotFit)
end

