-- ==== Sys2Proof/Laws/Alphabet.lean ====
section
/-! SUPPORT. The alphabet's words, size and members (spec/10_state.md R26). -/

namespace Sys2Proof.Machine

/-- A byte value is among the members exactly when its bit is set. -/
theorem mem_members (A : Alphabet) (b : Byte) : b ∈ members A ↔ hasByte A b = true := by
  simp only [members, hasByte, List.mem_map, List.mem_filter, List.mem_range]
  constructor
  · rintro ⟨k, ⟨hk, hA⟩, rfl⟩
    simpa [Nat.mod_eq_of_lt hk] using hA
  · intro h
    exact ⟨b.toNat, ⟨b.isLt, h⟩, by simp⟩

/-- There are as many members as `popcount` counts. -/
theorem length_members (A : Alphabet) : (members A).length = popcount A := by
  simp [members, popcount, List.countP_eq_length_filter]

/-- The members stand in strictly ascending order. -/
theorem members_ascending (A : Alphabet) : (members A).Pairwise (fun a b => a.toNat < b.toNat) := by
  have hlt : ((List.range 256).filter A.getLsbD).Pairwise (· < ·) := List.pairwise_lt_range.filter _
  have hmem : ∀ k ∈ (List.range 256).filter A.getLsbD, k < 256 := fun k hk =>
    List.mem_range.mp (List.mem_filter.mp hk).1
  refine List.pairwise_map.mpr (hlt.imp_of_mem ?_)
  intro a b ha hb hab
  simpa [Nat.mod_eq_of_lt (hmem a ha), Nat.mod_eq_of_lt (hmem b hb)] using hab

/-- Bit j of alphabet word n is bit 32n + j of the alphabet (R129). -/
theorem alphaWord_bit (A : Alphabet) (n : BitVec 3) (j : Nat) (hj : j < 32) :
    (alphaWord A n).getLsbD j = A.getLsbD (32 * n.toNat + j) := by
  simp [alphaWord, wordBase, hj]

/-- Writing word n sets its 32 bits and keeps the other 224 (R128). -/
theorem setAlphaWord_bit (A : Alphabet) (n : BitVec 3) (w : Word) (k : Nat) (hk : k < 256) :
    (setAlphaWord A n w).getLsbD k = if k / 32 = n.toNat then w.getLsbD (k % 32) else A.getLsbD k := by
  have hmask : ∀ j, (0xFFFFFFFF#256).getLsbD j = decide (j < 32) := by
    intro j
    by_cases hj : j < 256
    · revert j; decide +kernel
    · rw [BitVec.getLsbD_of_ge _ _ (by omega)]; simp; omega
  simp only [setAlphaWord, wordBase, BitVec.getLsbD_or, BitVec.getLsbD_and, BitVec.getLsbD_not,
    BitVec.getLsbD_shiftLeft, BitVec.getLsbD_setWidth, hmask, hk, decide_true, Bool.true_and]
  have hn := n.isLt
  by_cases h : k / 32 = n.toNat
  · have h1 : ¬ k < 32 * n.toNat := by omega
    have h2 : k - 32 * n.toNat < 32 := by omega
    have h3 : k - 32 * n.toNat = k % 32 := by omega
    have h4 : k % 32 < 256 := by omega
    simp [h, h1, h3, h4]
    omega
  · by_cases h1 : k < 32 * n.toNat
    · simp [h, h1]
    · have h2 : ¬ k - 32 * n.toNat < 32 := by omega
      have h3 : w.getLsbD (k - 32 * n.toNat) = false := BitVec.getLsbD_of_ge _ _ (by omega)
      simp [h, h1, h2, h3]

end Sys2Proof.Machine
end

