-- ==== Sys2Proof/Laws/Assembler.lean ====
section
/-! SUPPORT. The assembler's reader, one lemma for each of its parts: cutting, dropping a comment, trimming, numbers
(spec/30_encoding.md R68). -/

namespace Sys2Proof.Machine

theorem cut_of_not_mem {sep : Char} {cs : List Char} (h : sep ∉ cs) : cut sep cs = [cs] := by
  induction cs with
  | nil => rfl
  | cons c cs ih =>
    obtain ⟨hc, hcs⟩ := not_or.mp (mt List.mem_cons.mpr h)
    simp [cut, Ne.symm hc, ih hcs]

theorem cut_append_sep {sep : Char} {cs : List Char} (rest : List Char) (h : sep ∉ cs) :
    cut sep (cs ++ sep :: rest) = cs :: cut sep rest := by
  induction cs with
  | nil => simp [cut]
  | cons c cs ih =>
    obtain ⟨hc, hcs⟩ := not_or.mp (mt List.mem_cons.mpr h)
    simp [cut, Ne.symm hc, ih hcs]

/-- Text before any `;` and quotation mark is kept as it is (R68). -/
theorem dropComment_append {cs : List Char} (tail : List Char) (h : ∀ c ∈ cs, c ≠ ';' ∧ c ≠ '"') :
    dropComment false (cs ++ tail) = cs ++ dropComment false tail := by
  induction cs with
  | nil => rfl
  | cons c cs ih =>
    simp [dropComment, h c (by simp), ih fun d hd => h d (by simp [hd])]

/-- Text inside quotation marks is kept as it is, a `;` in it too (log 7). -/
theorem dropComment_quoted {text : List Char} (tail : List Char) (h : '"' ∉ text) :
    dropComment true (text ++ tail) = text ++ dropComment true tail := by
  induction text with
  | nil => rfl
  | cons c cs ih =>
    obtain ⟨hc, hcs⟩ := not_or.mp (mt List.mem_cons.mpr h)
    simp [dropComment, Ne.symm hc, ih hcs]

/-- A text that begins and ends with a character that is not white space has nothing to trim. -/
theorem trim_eq_self {cs : List Char} (hd : ∀ c ∈ cs.head?, isBlank c = false)
    (hl : ∀ c ∈ cs.getLast?, isBlank c = false) : trim cs = cs := by
  have drop : ∀ {ds : List Char}, (∀ c ∈ ds.head?, isBlank c = false) → ds.dropWhile isBlank = ds := by
    rintro (_ | ⟨c, ds⟩) h
    · rfl
    · simp [h c (by simp)]
  simp [trim, drop hd, drop (ds := cs.reverse) (by simpa using hl)]

@[simp] theorem trim_append_space (cs : List Char) : trim (cs ++ [' ']) = trim cs := by
  unfold trim
  rw [List.dropWhile_append]
  split
  · rename_i h
    rw [List.isEmpty_iff.mp h]
    simp [isBlank]
  · simp [isBlank]

@[simp] theorem trim_cons_space (cs : List Char) : trim (' ' :: cs) = trim cs := by
  simp [trim, isBlank]

/-- What a line's end leaves of a line: nothing (R68). -/
theorem trim_dropComment_lineEnd {cs tail : List Char} (ht : LineEnd tail) :
    trim (cs ++ dropComment false tail) = trim cs := by
  obtain rfl | ⟨text, rfl | rfl⟩ := ht <;> simp [dropComment]

theorem digits_eq {base : Nat} {digit : Char → Option Nat} {cs : List Char} (hne : cs ≠ [])
    (h : ∀ c ∈ cs, digit c = some (digitValue c)) :
    digits base digit cs = some (Nat.ofDigits base (cs.map digitValue).reverse) := by
  have fold : ∀ (ds : List Char) (v : Nat), (∀ c ∈ ds, digit c = some (digitValue c)) →
      ds.foldl (fun v d => do return (← v) * base + (← digit d)) (some v) =
        some (Nat.ofDigits base ((ds.map digitValue).reverse ++ [v])) := by
    intro ds
    induction ds with
    | nil => intro v _; simp
    | cons d ds ih =>
      intro v hd
      rw [List.foldl_cons, hd d (by simp)]
      refine (ih (v * base + digitValue d) fun c hc => hd c (by simp [hc])).trans ?_
      simp [Nat.ofDigits_append, Nat.ofDigits_cons, mul_comm, add_comm]
  obtain _ | ⟨c, cs⟩ := cs
  · exact absurd rfl hne
  · rw [digits, h c (by simp)]
    simpa using fold cs (digitValue c) fun d hd => h d (by simp [hd])

theorem decDigit_eq {c : Char} (h : IsDecDigit c) : decDigit c = some (digitValue c) := by
  unfold IsDecDigit at h
  simp only [decDigit, digitValue]
  rw [if_pos h, if_pos h.2]

theorem hexDigit_eq {c : Char} (h : IsHexDigit c) : hexDigit c = some (digitValue c) := by
  unfold IsHexDigit at h
  obtain h | h := h
  · have : ¬ ('A'.toNat ≤ c.toNat ∧ c.toNat ≤ 'F'.toNat) := by
      have := h.2; simp at this ⊢; omega
    have h2 : ¬ ('a'.toNat ≤ c.toNat ∧ c.toNat ≤ 'f'.toNat) := by
      have := h.2; simp at this ⊢; omega
    rw [hexDigit, if_neg this, if_neg h2, decDigit_eq h]
  · have : ¬ c.toNat ≤ '9'.toNat := by
      have := h.1; simp at this ⊢; omega
    rw [hexDigit, if_pos h, digitValue, if_neg this]

/-- A number as R68 writes it is read as its value. -/
theorem parseNumber_numeral {cs : List Char} {v : Nat} (h : Numeral cs v) : parseNumber cs = some v := by
  obtain ⟨hne, hd, rfl⟩ | ⟨ds, rfl, hne, hd, rfl⟩ := h
  · rw [parseNumber]
    · exact digits_eq hne fun c hc => decDigit_eq (hd c hc)
    · rintro ds rfl
      have := hd 'x' (by simp)
      simp [IsDecDigit] at this
  · exact digits_eq hne fun c hc => hexDigit_eq (hd c hc)

/-- A number is not empty, and no character of it ends an operand, a line or a word. -/
theorem numeral_chars {cs : List Char} {v : Nat} (h : Numeral cs v) :
    cs ≠ [] ∧ ∀ c ∈ cs, isBlank c = false ∧ c ≠ ';' ∧ c ≠ '"' ∧ c ≠ ',' := by
  have dec : ∀ c, IsDecDigit c → isBlank c = false ∧ c ≠ ';' ∧ c ≠ '"' ∧ c ≠ ',' := by
    intro c hc
    unfold IsDecDigit at hc
    refine ⟨?_, ?_⟩
    · simp only [isBlank, Bool.or_eq_false_iff, decide_eq_false_iff_not]
      refine ⟨⟨?_, ?_⟩, ?_⟩ <;> rintro rfl <;> simp at hc
    · refine ⟨?_, ?_, ?_⟩ <;> rintro rfl <;> simp at hc
  have hex : ∀ c, IsHexDigit c → isBlank c = false ∧ c ≠ ';' ∧ c ≠ '"' ∧ c ≠ ',' := by
    rintro c (hc | hc)
    · exact dec c hc
    refine ⟨?_, ?_⟩
    · simp only [isBlank, Bool.or_eq_false_iff, decide_eq_false_iff_not]
      refine ⟨⟨?_, ?_⟩, ?_⟩ <;> rintro rfl <;> simp at hc
    · refine ⟨?_, ?_, ?_⟩ <;> rintro rfl <;> simp at hc
  obtain ⟨hne, hd, -⟩ | ⟨ds, rfl, hne, hd, -⟩ := h
  · exact ⟨hne, fun c hc => dec c (hd c hc)⟩
  · refine ⟨by simp, fun c hc => ?_⟩
    rcases List.mem_cons.mp hc with rfl | hc
    · decide
    rcases List.mem_cons.mp hc with rfl | hc
    · decide
    exact hex c (hd c hc)

theorem trim_numeral {cs : List Char} {v : Nat} (h : Numeral cs v) : trim cs = cs :=
  trim_eq_self (fun c hc => ((numeral_chars h).2 c (List.mem_of_mem_head? hc)).1)
    (fun c hc => ((numeral_chars h).2 c (List.mem_of_mem_getLast? hc)).1)

/-- The operands of a line are its numbers: one number. -/
theorem numeral_body {cs : List Char} {v : Nat} (h : Numeral cs v) :
    cs ≠ [] ∧ (∀ c ∈ cs, c ≠ ';' ∧ c ≠ '"') ∧ ∀ c ∈ cs.getLast?, isBlank c = false :=
  ⟨(numeral_chars h).1, fun c hc => ⟨((numeral_chars h).2 c hc).2.1, ((numeral_chars h).2 c hc).2.2.1⟩,
    fun c hc => ((numeral_chars h).2 c (List.mem_of_mem_getLast? hc)).1⟩

/-- The operands of a line are its numbers: two numbers. -/
theorem numeral_pair_body {cs ds : List Char} {k v : Nat} (h : Numeral cs k) (h' : Numeral ds v) :
    cs ++ ',' :: ' ' :: ds ≠ [] ∧ (∀ c ∈ cs ++ ',' :: ' ' :: ds, c ≠ ';' ∧ c ≠ '"') ∧
      ∀ c ∈ (cs ++ ',' :: ' ' :: ds).getLast?, isBlank c = false := by
  refine ⟨by simp, ?_, ?_⟩
  · simp only [List.mem_append, List.mem_cons]
    rintro c (hc | rfl | rfl | hc)
    · exact (numeral_body h).2.1 c hc
    · decide
    · decide
    · exact (numeral_body h').2.1 c hc
  · intro c hc
    rw [show cs ++ ',' :: ' ' :: ds = (cs ++ [',', ' ']) ++ ds by simp,
      List.getLast?_append_of_ne_nil _ (numeral_chars h').1] at hc
    exact (numeral_body h').2.2 c hc

/-- One number, after a space, is an operand list of one. -/
theorem parseOperands_one {cs : List Char} {v : Nat} (h : Numeral cs v) : parseOperands (' ' :: cs) = .ok [v] := by
  have hc : ',' ∉ ' ' :: cs := by
    simpa using fun hm => ((numeral_chars h).2 ',' hm).2.2.2 rfl
  simp [parseOperands, trim_numeral h, (numeral_chars h).1, cut_of_not_mem hc, parseNumber_numeral h]

/-- Two numbers, a comma and a space between them, are an operand list of two. -/
theorem parseOperands_two {cs ds : List Char} {k v : Nat} (h : Numeral cs k) (h' : Numeral ds v) :
    parseOperands (' ' :: (cs ++ ',' :: ' ' :: ds)) = .ok [k, v] := by
  have hc : ',' ∉ ' ' :: cs := by
    simpa using fun hm => ((numeral_chars h).2 ',' hm).2.2.2 rfl
  have hd : ',' ∉ ' ' :: ds := by
    simpa using fun hm => ((numeral_chars h').2 ',' hm).2.2.2 rfl
  have hne : trim (' ' :: (cs ++ ',' :: ' ' :: ds)) ≠ [] := by
    rw [trim_cons_space, trim_eq_self _ (numeral_pair_body h h').2.2]
    · simp
    · obtain ⟨a, as, rfl⟩ := List.exists_cons_of_ne_nil (numeral_chars h).1
      simpa using ((numeral_chars h).2 a (by simp)).1
  rw [parseOperands, if_neg hne, ← List.cons_append, cut_append_sep _ hc, cut_of_not_mem hd]
  simp [trim_numeral h, trim_numeral h', parseNumber_numeral h, parseNumber_numeral h']
  rfl

/-- What a line is once its end is dropped and its text trimmed decides what it gives. -/
theorem assembleLine_congr {line line' : List Char}
    (h : trim (dropComment false line) = trim (dropComment false line')) : assembleLine line = assembleLine line' := by
  simp only [assembleLine, h]

/-- A line's end adds nothing to a line without `;` and quotation marks (R68). -/
theorem assembleLine_lineEnd {cs tail : List Char} (h : ∀ c ∈ cs, c ≠ ';' ∧ c ≠ '"') (ht : LineEnd tail) :
    assembleLine (cs ++ tail) = assembleLine cs := by
  apply assembleLine_congr
  rw [dropComment_append _ h, trim_dropComment_lineEnd ht]
  simpa [dropComment] using congrArg trim (dropComment_append [] h).symm

/-- A name, a space and a text that ends in no white space has nothing to trim. -/
theorem trim_name {name body : List Char} (hn : name ≠ []) (hb : ∀ c ∈ name, isBlank c = false) (hne : body ≠ [])
    (hl : ∀ c ∈ body.getLast?, isBlank c = false) : trim (name ++ ' ' :: body) = name ++ ' ' :: body := by
  apply trim_eq_self
  · obtain ⟨a, as, rfl⟩ := List.exists_cons_of_ne_nil hn
    simpa using hb a (by simp)
  · intro c hc
    rw [show name ++ ' ' :: body = (name ++ [' ']) ++ body by simp, List.getLast?_append_of_ne_nil _ hne] at hc
    exact hl c hc

/-- A line of a name, a space and a text without `;` and quotation marks is read as that name and that text (R68). -/
theorem assembleLine_name {name body tail : List Char} (ht : LineEnd tail) (hn : name ≠ [])
    (hc : ∀ c ∈ name, isBlank c = false ∧ c ≠ ';' ∧ c ≠ '"') (hne : body ≠ []) (hb : ∀ c ∈ body, c ≠ ';' ∧ c ≠ '"')
    (hl : ∀ c ∈ body.getLast?, isBlank c = false) : assembleLine (name ++ ' ' :: (body ++ tail)) =
      if name = rawDirective then do
        match ← parseOperands (' ' :: body) with
        | [w] => return [← fit 64 w]
        | _ => throw .wrongOperands
      else match opcodeNamed name with
        | some op => do return [← assembleOp op (← parseOperands (' ' :: body))]
        | none =>
          match pseudoNamed name (' ' :: body) with
          | some p => do return (← p).expand.map encode
          | none => .error .unknownMnemonic := by
  have plain : ∀ c ∈ name ++ ' ' :: body, c ≠ ';' ∧ c ≠ '"' := by
    simp only [List.mem_append, List.mem_cons]
    rintro c (h | rfl | h)
    · exact (hc c h).2
    · decide
    · exact hb c h
  have drop := dropComment_append [] plain
  simp only [List.append_nil, dropComment] at drop
  have blank : ∀ c ∈ name, (!isBlank c) = true := by simpa using fun c h => (hc c h).1
  rw [← List.cons_append, ← List.append_assoc, assembleLine_lineEnd plain ht, assembleLine, drop,
    trim_name hn (fun c h => (hc c h).1) hne hl]
  simp only [List.takeWhile_append_of_pos blank, List.dropWhile_append_of_pos blank]
  simp [isBlank, hn] <;> rfl

end Sys2Proof.Machine
end

