-- ==== Sys2Proof/Laws/Tables.lean ====
section
/-! SUPPORT. The two ROMs: the single-bit step is linear, and RINV inverts the top byte of LUT both ways
(spec/10_state.md R23, R24). -/

namespace Sys2Proof.Machine

/-- The single-bit step distributes over XOR (R6). -/
theorem genStep_xor (x y : Word) : genStep (x ^^^ y) = genStep x ^^^ genStep y := by
  have hP : ∀ a b p : Word, (a ^^^ p) ^^^ (b ^^^ p) = a ^^^ b := fun a b p => by
    rw [show (a ^^^ p) ^^^ (b ^^^ p) = (a ^^^ b) ^^^ (p ^^^ p) by ac_rfl, BitVec.xor_self, BitVec.xor_zero]
  simp only [genStep, BitVec.getLsbD_xor, BitVec.ushiftRight_xor_distrib]
  cases x.getLsbD 0 <;> cases y.getLsbD 0 <;> simp [hP] <;> ac_rfl

/-- Repeating a step that distributes over XOR distributes over XOR. -/
theorem iterate_xor (f : Word → Word) (hf : ∀ x y, f (x ^^^ y) = f x ^^^ f y) (n : Nat) (x y : Word) :
    iterate f n (x ^^^ y) = iterate f n x ^^^ iterate f n y := by
  induction n generalizing x y with
  | zero => rfl
  | succ n ih => simp only [iterate, hf, ih]

/-- A statement about every byte value follows from checking the 256 of them. -/
theorem forall_byte (p : Byte → Bool) (h : (List.range 256).all (fun k => p (BitVec.ofNat 8 k)) = true) (b : Byte) :
    p b = true := by
  have := List.all_eq_true.mp h b.toNat (List.mem_range.mpr b.isLt)
  simpa using this

/-- `RINV[LUT[i][31:24]] = i` (R24). -/
@[simp] theorem rinv_topByte_lut (i : Byte) : rinv (topByte (lut i)) = i := by
  have := forall_byte (fun i => rinv (topByte (lut i)) = i) (by decide +kernel) i
  simpa using this

/-- `LUT[RINV[t]][31:24] = t` (spec/95_test_vectors.md T2). -/
@[simp] theorem topByte_lut_rinv (t : Byte) : topByte (lut (rinv t)) = t := by
  have := forall_byte (fun t => topByte (lut (rinv t)) = t) (by decide +kernel) t
  simpa using this

end Sys2Proof.Machine
end

