-- ==== Sys2Proof/Laws/Crc.lean ====
section
/-! SUPPORT. The byte update and its composition (spec/40_crc_engine.md R80, R85 law 1), and what one step does with the
byte that the inverter chooses (spec/41_binary_forcing.md R102). -/

namespace Sys2Proof.Machine

@[simp] theorem crcAppend_nil (a : Word) : crcAppend a [] = a := rfl

@[simp] theorem crcAppend_cons (a : Word) (b : Byte) (bs : List Byte) :
    crcAppend a (b :: bs) = crcAppend (crcStep a b) bs := rfl

/-- Appending two sequences one after the other is appending their concatenation. -/
theorem crcAppend_append (a : Word) (bs cs : List Byte) :
    crcAppend a (bs ++ cs) = crcAppend (crcAppend a bs) cs := by
  simp [crcAppend]

/-- The step's table index in terms of bytes: the accumulator's low byte XOR the data byte. -/
theorem crcStep_eq (a : Word) (b : Byte) : crcStep a b = lut (lowByte a ^^^ b) ^^^ (a >>> 8) := by
  have h : lowByte (a ^^^ b.setWidth 32) = lowByte a ^^^ b := by
    simp [lowByte, BitVec.setWidth_xor]
  rw [crcStep, h]

/-- The byte chosen for an index makes the step use that index. -/
theorem crcStep_byteFor (a : Word) (i : Byte) : crcStep a (byteFor a i) = lut i ^^^ (a >>> 8) := by
  rw [crcStep_eq, byteFor, ← BitVec.xor_assoc, BitVec.xor_self, BitVec.zero_xor]

/-- The accumulator after the four bytes chosen for four indices. -/
theorem crcAppend_bytesFor (s : Word) (q : Quad) :
    crcAppend s (bytesFor s q).toList =
      lut q.b3 ^^^ ((lut q.b2 ^^^ ((lut q.b1 ^^^ ((lut q.b0 ^^^ (s >>> 8)) >>> 8)) >>> 8)) >>> 8) := by
  simp [bytesFor, Quad.toList, crcStep_byteFor]

end Sys2Proof.Machine
end

