-- ==== Sys2Proof/Laws/Decode.lean ====
section
/-! SUPPORT. The fields of a built word, the opcode numbers, and what the decoder can answer (spec/30_encoding.md R61 to
R65). -/

namespace Sys2Proof

@[simp] theorem cmdOpc_mkCommand (o n : Byte) (r : BitVec 16) (imm : Word) : cmdOpc (mkCommand o n r imm) = o := by
  ext k hk
  simp [cmdOpc, mkCommand]
  grind

@[simp] theorem cmdN_mkCommand (o n : Byte) (r : BitVec 16) (imm : Word) : cmdN (mkCommand o n r imm) = n := by
  ext k hk
  simp [cmdN, mkCommand]
  grind

@[simp] theorem cmdRsv_mkCommand (o n : Byte) (r : BitVec 16) (imm : Word) : cmdRsv (mkCommand o n r imm) = r := by
  ext k hk
  simp [cmdRsv, mkCommand]
  grind

@[simp] theorem cmdImm_mkCommand (o n : Byte) (r : BitVec 16) (imm : Word) : cmdImm (mkCommand o n r imm) = imm := by
  ext k hk
  simp [cmdImm, mkCommand]
  grind

/-- A word is its four fields. -/
theorem mkCommand_fields (c : Command) : mkCommand (cmdOpc c) (cmdN c) (cmdRsv c) (cmdImm c) = c := by
  ext k hk
  simp [mkCommand, cmdOpc, cmdN, cmdRsv, cmdImm]
  grind

@[simp] theorem opcodeOf_value (o : Opcode) : opcodeOf o.value = some o := by cases o <;> rfl

/-- The number of a decoded opcode is the opcode field. -/
theorem value_of_opcodeOf {v : Byte} {o : Opcode} (h : opcodeOf v = some o) : o.value = v := by
  apply BitVec.eq_of_toNat_eq
  unfold opcodeOf at h
  split at h <;> simp_all [Opcode.value] <;> (subst h; rfl)

/-- No opcode has a number exactly from 0x0D on (R63). -/
theorem opcodeOf_eq_none {v : Byte} : opcodeOf v = none ↔ 0x0C < v.toNat := by
  constructor
  · intro h
    unfold opcodeOf at h
    split at h <;> simp_all
    omega
  · intro h
    cases h' : opcodeOf v with
    | none => rfl
    | some o => rw [← value_of_opcodeOf h'] at h; cases o <;> simp [Opcode.value] at h

/-- What a legal word is: all four checks pass, and the command is the one its opcode and operands name (R64). -/
theorem decode_eq_ok {c : Command} {i : Instr} :
    decode c = .ok i ↔ ∃ op, opcodeOf (cmdOpc c) = some op ∧ cmdRsv c = 0#16 ∧ legalN op (cmdN c) = true ∧
      cmdImm c &&& ~~~ immUsedMask op (cmdN c) = 0#32 ∧ i = buildInstr op (cmdN c) (cmdImm c) := by
  unfold decode
  cases h : opcodeOf (cmdOpc c) with
  | none => simp
  | some op =>
    simp only [Option.some.injEq, exists_eq_left']
    by_cases h1 : cmdRsv c = 0#16
    · by_cases h2 : legalN op (cmdN c) = true
      · by_cases h3 : cmdImm c &&& ~~~ immUsedMask op (cmdN c) = 0#32
        · simp [h1, h2, h3, eq_comm]
        · simp [h1, h2, h3]
      · simp [h1, h2]
    · simp [h1]

/-- What an illegal word is: the first check that fails and its field's value (R64). -/
theorem decode_eq_error {c : Command} {e : DecodeError} :
    decode c = .error e ↔
      (opcodeOf (cmdOpc c) = none ∧ e = .illegalOpcode (cmdOpc c)) ∨
      ∃ op, opcodeOf (cmdOpc c) = some op ∧
        ((cmdRsv c ≠ 0#16 ∧ e = .reservedRsv (cmdRsv c)) ∨
          (cmdRsv c = 0#16 ∧ legalN op (cmdN c) = false ∧ e = .illegalOperand (cmdN c)) ∨
          (cmdRsv c = 0#16 ∧ legalN op (cmdN c) = true ∧ cmdImm c &&& ~~~ immUsedMask op (cmdN c) ≠ 0#32 ∧
            e = .reservedImm (cmdImm c))) := by
  unfold decode
  cases h : opcodeOf (cmdOpc c) with
  | none => simpa using eq_comm
  | some op =>
    simp only [Option.some.injEq, exists_eq_left', reduceCtorEq, false_and, false_or]
    by_cases h1 : cmdRsv c = 0#16
    · by_cases h2 : legalN op (cmdN c) = true
      · by_cases h3 : cmdImm c &&& ~~~ immUsedMask op (cmdN c) = 0#32
        · simp [h1, h2, h3]
        · simpa [h1, h2, h3] using eq_comm
      · simpa [h1, h2] using eq_comm
    · simpa [h1] using eq_comm

/-- No bit lies outside the low `m` exactly when the value is below `2^m`. -/
theorem and_not_lowMask (imm : Word) (m : Nat) :
    imm &&& ~~~ BitVec.ofNat 32 (2 ^ m - 1) = 0#32 ↔ imm.toNat < 2 ^ m := by
  have hbit : ∀ i, i < 32 → (BitVec.ofNat 32 (2 ^ m - 1)).getLsbD i = decide (i < m) := fun i hi => by
    rw [BitVec.getLsbD_ofNat, Nat.testBit_two_pow_sub_one]
    simp [hi]
  constructor
  · intro h
    refine Nat.lt_pow_two_of_testBit _ fun i hi => ?_
    by_cases h32 : i < 32
    · have hb := congrArg (fun x => x.getLsbD i) h
      simp only [BitVec.getLsbD_and, BitVec.getLsbD_not, hbit i h32, h32, Nat.not_lt.mpr hi] at hb
      simpa [BitVec.testBit_toNat] using hb
    · exact Nat.testBit_lt_two_pow (lt_of_lt_of_le imm.isLt (Nat.pow_le_pow_right (by omega) (by omega)))
  · intro h
    refine BitVec.eq_of_getLsbD_eq fun i hi => ?_
    rw [BitVec.getLsbD_and, BitVec.getLsbD_not, hbit i hi]
    by_cases hm : i < m
    · simp [hm]
    · have hb : imm.toNat.testBit i = false :=
        Nat.testBit_lt_two_pow (lt_of_lt_of_le h (Nat.pow_le_pow_right (by omega) (by omega)))
      rw [← BitVec.testBit_toNat, hb]
      simp

/-- APPEND's IMM check by value: the bits at and above 8N are 0 exactly when IMM is below 2^(8N) (R64). -/
theorem append_imm_check (n : Byte) (imm : Word) :
    imm &&& ~~~ immUsedMask .append n = 0#32 ↔ imm.toNat < 2 ^ (8 * n.toNat) :=
  and_not_lowMask imm (8 * n.toNat)

/-- The table's constraint on APPEND's data says the same by value. -/
theorem appendDataOk_iff (n : Byte) (imm : Word) :
    Instr.appendDataOk n imm = true ↔ imm.toNat < 2 ^ (8 * n.toNat) := by
  simp only [Instr.appendDataOk, decide_eq_true_eq]
  constructor
  · intro h
    have h' := congrArg BitVec.toNat h
    simpa [Nat.shiftRight_eq_div_pow] using h'
  · intro h
    apply BitVec.eq_of_toNat_eq
    simpa [Nat.shiftRight_eq_div_pow] using h

end Sys2Proof
end

