-- ==== Sys2Proof/Laws/Operands.lean ====
section
/-! SUPPORT. Packing and unpacking bytes agree (spec/20_memory.md R43). -/

namespace Sys2Proof.Machine

@[simp] theorem byteOf_packWord_zero (b0 b1 b2 b3 : Byte) : byteOf (packWord b0 b1 b2 b3) 0 = b0 := by
  ext k hk
  simp [byteOf, packWord]
  grind

@[simp] theorem byteOf_packWord_one (b0 b1 b2 b3 : Byte) : byteOf (packWord b0 b1 b2 b3) 1 = b1 := by
  ext k hk
  simp [byteOf, packWord]
  grind

@[simp] theorem byteOf_packWord_two (b0 b1 b2 b3 : Byte) : byteOf (packWord b0 b1 b2 b3) 2 = b2 := by
  ext k hk
  simp [byteOf, packWord]
  grind

@[simp] theorem byteOf_packWord_three (b0 b1 b2 b3 : Byte) : byteOf (packWord b0 b1 b2 b3) 3 = b3 := by
  ext k hk
  simp [byteOf, packWord]
  grind

/-- An APPEND carries exactly its count of bytes (R82). -/
@[simp] theorem length_appendBytes (n : Byte) (imm : Word) : (appendBytes n imm).length = n.toNat := by
  simp [appendBytes]

/-- The j-th data byte of an APPEND (R82). -/
theorem getElem_appendBytes (n : Byte) (imm : Word) (j : Nat) (h : j < (appendBytes n imm).length) :
    (appendBytes n imm)[j] = imm.extractLsb' (8 * j) 8 := by
  simp [appendBytes, byteOf]

end Sys2Proof.Machine
end

