-- ==== Sys2Proof/Laws/PerInstr.lean ====
section
/-! SUPPORT. Families of statements about every command as syntax, one lemma per constructor. -/

namespace Sys2Proof.Laws.EncodedFields

/-- The encoded word's fields are the command's: its opcode number, its small operand, RSV = 0 and its 32-bit operand
(spec/30_encoding.md R61, R63). -/
def Statement (i : Instr) : Prop :=
  cmdOpc (encode i) = i.opcode.value ∧ cmdN (encode i) = i.fieldN ∧ cmdRsv (encode i) = 0#16 ∧
    cmdImm (encode i) = i.fieldImm

/-- The fields of a built word, for every command. -/
theorem of_mkCommand (i : Instr) : Statement i := by simp [Statement, encode]

theorem nop : Statement .nop := of_mkCommand _
theorem set (imm : Word) : Statement (.set imm) := of_mkCommand _
theorem append (n : Byte) (imm : Word) : Statement (.append n imm) := of_mkCommand _
theorem getacc : Statement .getacc := of_mkCommand _
theorem solveb (imm : Word) : Statement (.solveb imm) := of_mkCommand _
theorem solvea (imm : Word) : Statement (.solvea imm) := of_mkCommand _
theorem applyp : Statement .applyp := of_mkCommand _
theorem getpatch (n : BitVec 1) : Statement (.getpatch n) := of_mkCommand _
theorem getstat : Statement .getstat := of_mkCommand _
theorem setalpha (n : BitVec 3) (imm : Word) : Statement (.setalpha n imm) := of_mkCommand _
theorem getalpha (n : BitVec 3) : Statement (.getalpha n) := of_mkCommand _
theorem defalpha : Statement .defalpha := of_mkCommand _
theorem table (n : Byte) : Statement (.table n) := of_mkCommand _

end Sys2Proof.Laws.EncodedFields
end

