-- ==== Sys2Proof/Laws/Search.lean ====
section
/-! SUPPORT. What the printable search can answer (spec/42_printable_forcing.md R121). -/

namespace Sys2Proof.Machine

/-- A candidate is accepted exactly when its suffix lies in the alphabet; its patch is the padding and that suffix. -/
theorem tryCandidate_eq_some {s t : Word} {A : Alphabet} {p0 p1 : Byte} {p : Patch} :
    tryCandidate s t A p0 p1 = some p ↔
      quadIn A (binSolve (crcAppend s [p0, p1]) t) = true ∧
      p = ⟨p0, p1, (binSolve (crcAppend s [p0, p1]) t).b0, (binSolve (crcAppend s [p0, p1]) t).b1,
        (binSolve (crcAppend s [p0, p1]) t).b2, (binSolve (crcAppend s [p0, p1]) t).b3⟩ := by
  unfold tryCandidate
  generalize binSolve (crcAppend s [p0, p1]) t = q
  cases h : quadIn A q <;> simp [h, eq_comm]

/-- A candidate is rejected exactly when its suffix leaves the alphabet. -/
theorem tryCandidate_eq_none {s t : Word} {A : Alphabet} {p0 p1 : Byte} :
    tryCandidate s t A p0 p1 = none ↔ quadIn A (binSolve (crcAppend s [p0, p1]) t) = false := by
  unfold tryCandidate
  generalize binSolve (crcAppend s [p0, p1]) t = q
  cases h : quadIn A q <;> simp [h]

/-- The search finds nothing exactly when every padding pair is rejected. -/
theorem firstCandidate_eq_none {s t : Word} {A : Alphabet} {L : List Byte} :
    firstCandidate s t A L = none ↔ ∀ p1 ∈ L, ∀ p0 ∈ L, tryCandidate s t A p0 p1 = none := by
  simp [firstCandidate]

/-- What the search finds is some accepted padding pair. -/
theorem firstCandidate_some {s t : Word} {A : Alphabet} {L : List Byte} {p : Patch}
    (h : firstCandidate s t A L = some p) : ∃ p1 ∈ L, ∃ p0 ∈ L, tryCandidate s t A p0 p1 = some p := by
  obtain ⟨p1, h1, h⟩ := List.exists_of_findSome?_eq_some h
  obtain ⟨p0, h0, h⟩ := List.exists_of_findSome?_eq_some h
  exact ⟨p1, h1, p0, h0, h⟩

/-- The three answers of the solver (R121, R123). -/
theorem ascSolve_cases (s t : Word) (A : Alphabet) :
    (popcount A = 0 ∧ ascSolve s t A = .invalidAlphabet) ∨
    (popcount A ≠ 0 ∧ firstCandidate s t A (members A) = none ∧ ascSolve s t A = .noSolutionFound) ∨
    (∃ p, popcount A ≠ 0 ∧ firstCandidate s t A (members A) = some p ∧ ascSolve s t A = .ok p) := by
  simp only [ascSolve, Config.minAlphabetSize, Nat.lt_one_iff]
  by_cases h : popcount A = 0
  · simp [h]
  · cases h' : firstCandidate s t A (members A) <;> simp [h]

end Sys2Proof.Machine
end

