-- ==== Sys2Proof/Laws/State.lean ====
section
/-! SUPPORT. What each register update leaves in each field, so that no later proof unfolds a record update, and the
shared ends of a command as chains of those updates. -/

namespace Sys2Proof.Machine

variable (s : State)

@[simp] theorem State.setAcc_acc (v : Word) : (s.setAcc v).acc = v := rfl
@[simp] theorem State.setAcc_patch (v : Word) : (s.setAcc v).patch = s.patch := rfl
@[simp] theorem State.setAcc_plen (v : Word) : (s.setAcc v).plen = s.plen := rfl
@[simp] theorem State.setAcc_alpha (v : Word) : (s.setAcc v).alpha = s.alpha := rfl
@[simp] theorem State.setAcc_err (v : Word) : (s.setAcc v).err = s.err := rfl
@[simp] theorem State.setAcc_out (v : Word) : (s.setAcc v).out = s.out := rfl
@[simp] theorem State.setAcc_port (v : Word) : (s.setAcc v).port = s.port := rfl
@[simp] theorem State.setAcc_resets (v : Word) : (s.setAcc v).resets = s.resets := rfl

@[simp] theorem State.setPatch_acc (p : Patch) (n : BitVec 3) : (s.setPatch p n).acc = s.acc := rfl
@[simp] theorem State.setPatch_patch (p : Patch) (n : BitVec 3) : (s.setPatch p n).patch = p := rfl
@[simp] theorem State.setPatch_plen (p : Patch) (n : BitVec 3) : (s.setPatch p n).plen = n := rfl
@[simp] theorem State.setPatch_alpha (p : Patch) (n : BitVec 3) : (s.setPatch p n).alpha = s.alpha := rfl
@[simp] theorem State.setPatch_err (p : Patch) (n : BitVec 3) : (s.setPatch p n).err = s.err := rfl
@[simp] theorem State.setPatch_out (p : Patch) (n : BitVec 3) : (s.setPatch p n).out = s.out := rfl
@[simp] theorem State.setPatch_port (p : Patch) (n : BitVec 3) : (s.setPatch p n).port = s.port := rfl
@[simp] theorem State.setPatch_resets (p : Patch) (n : BitVec 3) : (s.setPatch p n).resets = s.resets := rfl

@[simp] theorem State.setAlpha_acc (A : Alphabet) : (s.setAlpha A).acc = s.acc := rfl
@[simp] theorem State.setAlpha_patch (A : Alphabet) : (s.setAlpha A).patch = s.patch := rfl
@[simp] theorem State.setAlpha_plen (A : Alphabet) : (s.setAlpha A).plen = s.plen := rfl
@[simp] theorem State.setAlpha_alpha (A : Alphabet) : (s.setAlpha A).alpha = A := rfl
@[simp] theorem State.setAlpha_err (A : Alphabet) : (s.setAlpha A).err = s.err := rfl
@[simp] theorem State.setAlpha_out (A : Alphabet) : (s.setAlpha A).out = s.out := rfl
@[simp] theorem State.setAlpha_port (A : Alphabet) : (s.setAlpha A).port = s.port := rfl
@[simp] theorem State.setAlpha_resets (A : Alphabet) : (s.setAlpha A).resets = s.resets := rfl

@[simp] theorem State.setErr_acc (e : ErrCode) : (s.setErr e).acc = s.acc := rfl
@[simp] theorem State.setErr_patch (e : ErrCode) : (s.setErr e).patch = s.patch := rfl
@[simp] theorem State.setErr_plen (e : ErrCode) : (s.setErr e).plen = s.plen := rfl
@[simp] theorem State.setErr_alpha (e : ErrCode) : (s.setErr e).alpha = s.alpha := rfl
@[simp] theorem State.setErr_err (e : ErrCode) : (s.setErr e).err = e.code := rfl
@[simp] theorem State.setErr_out (e : ErrCode) : (s.setErr e).out = s.out := rfl
@[simp] theorem State.setErr_port (e : ErrCode) : (s.setErr e).port = s.port := rfl
@[simp] theorem State.setErr_resets (e : ErrCode) : (s.setErr e).resets = s.resets := rfl

@[simp] theorem State.setOut_acc (v : Word) : (s.setOut v).acc = s.acc := rfl
@[simp] theorem State.setOut_patch (v : Word) : (s.setOut v).patch = s.patch := rfl
@[simp] theorem State.setOut_plen (v : Word) : (s.setOut v).plen = s.plen := rfl
@[simp] theorem State.setOut_alpha (v : Word) : (s.setOut v).alpha = s.alpha := rfl
@[simp] theorem State.setOut_err (v : Word) : (s.setOut v).err = s.err := rfl
@[simp] theorem State.setOut_out (v : Word) : (s.setOut v).out = v := rfl
@[simp] theorem State.setOut_port (v : Word) : (s.setOut v).port = s.port := rfl
@[simp] theorem State.setOut_resets (v : Word) : (s.setOut v).resets = s.resets := rfl

@[simp] theorem State.setPort_acc (p : List HostAction) : (s.setPort p).acc = s.acc := rfl
@[simp] theorem State.setPort_patch (p : List HostAction) : (s.setPort p).patch = s.patch := rfl
@[simp] theorem State.setPort_plen (p : List HostAction) : (s.setPort p).plen = s.plen := rfl
@[simp] theorem State.setPort_alpha (p : List HostAction) : (s.setPort p).alpha = s.alpha := rfl
@[simp] theorem State.setPort_err (p : List HostAction) : (s.setPort p).err = s.err := rfl
@[simp] theorem State.setPort_out (p : List HostAction) : (s.setPort p).out = s.out := rfl
@[simp] theorem State.setPort_port (p : List HostAction) : (s.setPort p).port = p := rfl
@[simp] theorem State.setPort_resets (p : List HostAction) : (s.setPort p).resets = s.resets := rfl

@[simp] theorem raise_eq (e : ErrCode) : raise e s = s.setErr e := rfl
@[simp] theorem readOut_eq (v : Word) : readOut v s = (s.setOut v).setErr .ok := rfl
@[simp] theorem failSolve_eq (e : ErrCode) : failSolve e s = (s.setPatch Patch.zero 0#3).setErr e := rfl

@[simp] theorem State.afterReset_acc (v : Word) : (State.afterReset v).acc = v := rfl
@[simp] theorem State.afterReset_patch (v : Word) : (State.afterReset v).patch = Patch.zero := rfl
@[simp] theorem State.afterReset_plen (v : Word) : (State.afterReset v).plen = 0#3 := rfl
@[simp] theorem State.afterReset_alpha (v : Word) : (State.afterReset v).alpha = defaultAlphabet := rfl
@[simp] theorem State.afterReset_err (v : Word) : (State.afterReset v).err = 0#4 := rfl
@[simp] theorem State.afterReset_out (v : Word) : (State.afterReset v).out = 0#32 := rfl
@[simp] theorem State.afterReset_port (v : Word) : (State.afterReset v).port = [] := rfl
@[simp] theorem State.afterReset_resets (v : Word) : (State.afterReset v).resets = 1 := rfl

@[simp] theorem State.reset_eq : State.reset = State.afterReset (Config.accResetValue 0) := rfl

@[simp] theorem blockReset_acc : (blockReset s).acc = Config.accResetValue s.resets := rfl
@[simp] theorem blockReset_patch : (blockReset s).patch = Patch.zero := rfl
@[simp] theorem blockReset_plen : (blockReset s).plen = 0#3 := rfl
@[simp] theorem blockReset_alpha : (blockReset s).alpha = defaultAlphabet := rfl
@[simp] theorem blockReset_err : (blockReset s).err = 0#4 := rfl
@[simp] theorem blockReset_out : (blockReset s).out = 0#32 := rfl
@[simp] theorem blockReset_port : (blockReset s).port = s.port := rfl
@[simp] theorem blockReset_resets : (blockReset s).resets = s.resets + 1 := rfl

/-- Two states are equal when every field is. -/
theorem State.ext_fields {s t : State} (h1 : s.acc = t.acc) (h2 : s.patch = t.patch) (h3 : s.plen = t.plen)
    (h4 : s.alpha = t.alpha) (h5 : s.err = t.err) (h6 : s.out = t.out) (h7 : s.port = t.port)
    (h8 : s.resets = t.resets) : s = t := by
  cases s; cases t; simp_all

end Sys2Proof.Machine
end

