-- ==== Sys2Proof/Laws/Step.lean ====
section
/-! SUPPORT. What a step does for each next action of the host (spec/30_encoding.md R67), and the shared end of a failed
command. -/

namespace Sys2Proof.Machine

/-- Ending with an error changes ERR alone (R172). -/
theorem raise_spec (e : ErrCode) (s : State) :
    SameButErr s (raise e s) ∧ (raise e s).err = e.code ∧ (raise e s).port = s.port ∧
      (raise e s).resets = s.resets := by
  simp [SameButErr]

theorem takeAction_eq_none {s : State} : takeAction s = none ↔ s.port = [] := by
  unfold takeAction
  cases s.port <;> simp

theorem takeAction_eq_some {s t : State} {a : HostAction} :
    takeAction s = some (a, t) ↔ ∃ rest, s.port = a :: rest ∧ t = s.setPort rest := by
  unfold takeAction
  cases h : s.port with
  | nil => simp
  | cons b rest => simp [eq_comm]

/-- A step with an action pending carries that action out, with the later ones still pending. -/
theorem step_action {s : State} {a : HostAction} {rest : List HostAction} (h : s.port = a :: rest) :
    step s = perform a (s.setPort rest) := by
  simp [step, takeAction, h]

@[simp] theorem perform_command (w : Command) (s : State) : perform (.command w) s = issue w s := rfl

@[simp] theorem perform_reset (c : Option Command) (s : State) : perform (.reset c) s = .next (blockReset s) := rfl

/-- A legal word is executed. -/
theorem issue_ok {w : Command} {i : Instr} (h : decode w = .ok i) (s : State) : issue w s = exec i s := by
  simp [issue, h]

/-- A word that fails a check writes ERR. -/
theorem issue_error {w : Command} {e : DecodeError} (h : decode w = .error e) (s : State) :
    issue w s = .next (raise (errOfDecode e) s) := by
  simp [issue, h]

/-- Everything a step can do: wait, reset, execute a legal word, or end an illegal one with its error. -/
theorem step_cases {s t : State} (h : step s = .next t) :
    (s.port = [] ∧ t = s) ∨
    (∃ c rest, s.port = .reset c :: rest ∧ t = blockReset (s.setPort rest)) ∨
    (∃ w rest i, s.port = .command w :: rest ∧ decode w = .ok i ∧ exec i (s.setPort rest) = .next t) ∨
    (∃ w rest e, s.port = .command w :: rest ∧ decode w = .error e ∧
      t = raise (errOfDecode e) (s.setPort rest)) := by
  cases hp : s.port with
  | nil =>
    rw [step, takeAction_eq_none.mpr hp] at h
    exact .inl ⟨rfl, (Host.Outcome.next.inj h).symm⟩
  | cons a rest =>
    rw [step_action hp] at h
    refine .inr ?_
    cases a with
    | reset c => exact .inl ⟨c, rest, rfl, (Host.Outcome.next.inj h).symm⟩
    | command w =>
      refine .inr ?_
      rw [perform_command] at h
      cases hd : decode w with
      | ok i => exact .inl ⟨w, rest, i, rfl, hd, issue_ok hd _ ▸ h⟩
      | error e =>
        rw [issue_error hd] at h
        exact .inr ⟨w, rest, e, rfl, hd, (Host.Outcome.next.inj h).symm⟩

/-- The words counted in an observation are those executed as read commands (R28, R154; log 9). -/
theorem isReadWord_iff (w : Command) : isReadWord w = true ↔ ReadsOut w := by
  unfold isReadWord ReadsOut
  cases decode w with
  | error e => simp
  | ok i => cases i <;> simp [isReadInstr]

end Sys2Proof.Machine
end

