-- ==== Sys2Proof/Tests/Slice0.lean ====
section
/-! SUPPORT. The model's own tests. Every expected value is taken from the spec: the tables and vectors of
spec/95_test_vectors.md (its vector is named in the comment), the worked encodings of spec/30_encoding.md section 7, or
the encoding patterns of spec/opcode_table.json written out bit by bit. The witness theorems at the end meet the
hypotheses of the statements in Certificates/Slice0/Obligations.lean. -/

-- One theorem at a time: many kernel evaluations side by side would each take a thread of their own.
set_option Elab.async false

namespace Sys2Proof.Tests

open Sys2Proof.Machine

/-- The next state of an outcome, if there is one. -/
def nextOf {σ : Type} (o : Host.Outcome σ Fault Refusal) : Option σ :=
  match o with
  | .next t => some t
  | .fault _ => none
  | .refused _ => none

theorem of_nextOf {σ : Type} {o : Host.Outcome σ Fault Refusal} {t : σ} (h : nextOf o = some t) : o = .next t := by
  cases o <;> simp_all [nextOf]

/-- A state with a given accumulator, everything else as after reset. -/
def accState (a : Word) : State := State.afterReset a

/-- A state with a given accumulator and stored patch. -/
def patchState (a : Word) (p : Patch) (n : BitVec 3) : State := (accState a).setPatch p n

/-- A state with a given accumulator and alphabet. -/
def alphaState (a : Word) (A : Alphabet) : State := (accState a).setAlpha A

/-! ## Decoding: one word per row, written from its encoding pattern -/

theorem test_decode_nop :
    decode 0b0000000000000000000000000000000000000000000000000000000000000000#64 = .ok .nop := by decide +kernel
theorem test_decode_set :
    decode 0b0000000100000000000000000000000010000000000000000000000000000111#64 = .ok (.set 0x80000007#32) := by
  decide +kernel
theorem test_decode_append :
    decode 0b0000001000000011000000000000000000000000100000000000000000000001#64 = .ok (.append 3#8 0x00800001#32) := by
  decide +kernel
theorem test_decode_getacc :
    decode 0b0000001100000000000000000000000000000000000000000000000000000000#64 = .ok .getacc := by decide +kernel
theorem test_decode_solveb :
    decode 0b0000010000000000000000000000000010000000000000000000000000000001#64 = .ok (.solveb 0x80000001#32) := by
  decide +kernel
theorem test_decode_solvea :
    decode 0b0000010100000000000000000000000010000000000000000000000000000001#64 = .ok (.solvea 0x80000001#32) := by
  decide +kernel
theorem test_decode_applyp :
    decode 0b0000011000000000000000000000000000000000000000000000000000000000#64 = .ok .applyp := by decide +kernel
theorem test_decode_getpatch :
    decode 0b0000011100000001000000000000000000000000000000000000000000000000#64 = .ok (.getpatch 1#1) := by
  decide +kernel
theorem test_decode_getstat :
    decode 0b0000100000000000000000000000000000000000000000000000000000000000#64 = .ok .getstat := by decide +kernel
theorem test_decode_setalpha :
    decode 0b0000100100000101000000000000000010000000000000000000000000000001#64 = .ok (.setalpha 5#3 0x80000001#32) := by
  decide +kernel
theorem test_decode_getalpha :
    decode 0b0000101000000110000000000000000000000000000000000000000000000000#64 = .ok (.getalpha 6#3) := by
  decide +kernel
theorem test_decode_defalpha :
    decode 0b0000101100000000000000000000000000000000000000000000000000000000#64 = .ok .defalpha := by decide +kernel
theorem test_decode_table :
    decode 0b0000110010000001000000000000000000000000000000000000000000000000#64 = .ok (.table 0x81#8) := by
  decide +kernel

/-- The illegal words X1 to X22 of spec/95_test_vectors.md section 7 and the codes they write to ERR. -/
def illegalWords : List (Command × BitVec 4) := [
  (0x0D00000000000000#64, 4#4), (0xFF00000000000000#64, 4#4), (0x0D01000100000001#64, 4#4),
  (0x0300000100000000#64, 6#4), (0x0305000100000000#64, 6#4), (0x0305000000000001#64, 5#4),
  (0x0300000000000001#64, 6#4), (0x0001000000000000#64, 5#4), (0x0000000000000001#64, 6#4),
  (0x0200000000000001#64, 6#4), (0x0203000001000000#64, 6#4), (0x0205000000000000#64, 5#4),
  (0x0702000000000000#64, 5#4), (0x0908000000000000#64, 5#4), (0x0A08000000000000#64, 5#4),
  (0x0CFF000000000001#64, 6#4), (0x0101000000000000#64, 5#4), (0x0401000012345678#64, 5#4),
  (0x0800000000000001#64, 6#4), (0x0600800000000000#64, 6#4)]

/-- X1 to X22: only ERR changes, to the code of the first failing check. -/
theorem test_illegal_words : illegalWords.all (fun p =>
    nextOf (issue p.1 (accState 0x12345678#32)) = some { accState 0x12345678#32 with err := p.2 }) = true := by
  decide +kernel

/-- X12, X13: the largest operands that are legal. -/
theorem test_legal_append_limits : decode 0x0203000000FFFFFF#64 = .ok (.append 3#8 0xFFFFFF#32) ∧
    decode 0x0204000000000000#64 = .ok (.append 4#8 0#32) := by decide +kernel

/-- The encoder on worked encodings of spec/30_encoding.md section 7. -/
theorem test_encode_worked : encode (.append 4#8 0x34333231#32) = 0x0204000034333231#64 ∧
    encode (.setalpha 3#3 0x7FFFFFFF#32) = 0x090300007FFFFFFF#64 ∧ encode (.table 255#8) = 0x0CFF000000000000#64 := by
  decide +kernel

/-- No word matches two rows of the opcode table: each two rows differ in a bit that both fix. -/
theorem test_opcode_rows_disjoint :
    opcodeTable.Pairwise fun r r' => (r.word ^^^ r'.word) &&& (r.mask &&& r'.mask) ≠ 0#64 := by decide +kernel

/-- The host's reading of a row's word, and of one whose operand bits are past the legal values. -/
theorem test_decode_table_word : decodeTableWord 64 0x0702000000000000 = none ∧
    decodeTableWord 64 0x0701000000000000 = some (.getpatch 1#1) := by decide +kernel

/-! ## Well-formedness: an ill-formed term for each check -/

theorem test_wf_refuses_append_count : (Instr.append 5#8 0#32).wf = false := by decide +kernel
theorem test_wf_refuses_append_data : (Instr.append 1#8 0x100#32).wf = false := by decide +kernel
theorem test_wf_accepts_append_limits :
    (Instr.append 4#8 0xFFFFFFFF#32).wf = true ∧ (Instr.append 0#8 0#32).wf = true := by decide +kernel

/-! ## The tables (spec/95_test_vectors.md section 2) -/

/-- The lookup table as the spec prints it: eight entries a row, the entry of the smallest index leftmost. -/
def lutRows : List (BitVec 256) := [
  0x0000000077073096EE0E612C990951BA076DC419706AF48FE963A5359E6495A3#256,
  0x0EDB883279DCB8A4E0D5E91E97D2D98809B64C2B7EB17CBDE7B82D0790BF1D91#256,
  0x1DB710646AB020F2F3B9714884BE41DE1ADAD47D6DDDE4EBF4D4B55183D385C7#256,
  0x136C9856646BA8C0FD62F97A8A65C9EC14015C4F63066CD9FA0F3D638D080DF5#256,
  0x3B6E20C84C69105ED56041E4A26771723C03E4D14B04D447D20D85FDA50AB56B#256,
  0x35B5A8FA42B2986CDBBBC9D6ACBCF94032D86CE345DF5C75DCD60DCFABD13D59#256,
  0x26D930AC51DE003AC8D75180BFD0611621B4F4B556B3C423CFBA9599B8BDA50F#256,
  0x2802B89E5F058808C60CD9B2B10BE9242F6F7C8758684C11C1611DABB6662D3D#256,
  0x76DC419001DB710698D220BCEFD5102A71B1858906B6B51F9FBFE4A5E8B8D433#256,
  0x7807C9A20F00F9349609A88EE10E98187F6A0DBB086D3D2D91646C97E6635C01#256,
  0x6B6B51F41C6C6162856530D8F262004E6C0695ED1B01A57B8208F4C1F50FC457#256,
  0x65B0D9C612B7E9508BBEB8EAFCB9887C62DD1DDF15DA2D498CD37CF3FBD44C65#256,
  0x4DB261583AB551CEA3BC0074D4BB30E24ADFA5413DD895D7A4D1C46DD3D6F4FB#256,
  0x4369E96A346ED9FCAD678846DA60B8D044042D7333031DE5AA0A4C5FDD0D7CC9#256,
  0x5005713C270241AABE0B1010C90C20865768B525206F85B3B966D409CE61E49F#256,
  0x5EDEF90E29D9C998B0D09822C7D7A8B459B33D172EB40D81B7BD5C3BC0BA6CAD#256,
  0xEDB883209ABFB3B603B6E20C74B1D29AEAD547399DD277AF04DB261573DC1683#256,
  0xE3630B1294643B840D6D6A3E7A6A5AA8E40ECF0B9309FF9D0A00AE277D079EB1#256,
  0xF00F93448708A3D21E01F2686906C2FEF762575D806567CB196C36716E6B06E7#256,
  0xFED41B7689D32BE010DA7A5A67DD4ACCF9B9DF6F8EBEEFF917B7BE4360B08ED5#256,
  0xD6D6A3E8A1D1937E38D8C2C44FDFF252D1BB67F1A6BC57673FB506DD48B2364B#256,
  0xD80D2BDAAF0A1B4C36034AF641047A60DF60EFC3A867DF55316E8EEF4669BE79#256,
  0xCB61B38CBC66831A256FD2A05268E236CC0C7795BB0B4703220216B95505262F#256,
  0xC5BA3BBEB2BD0B282BB45A925CB36A04C2D7FFA7B5D0CF312CD99E8B5BDEAE1D#256,
  0x9B64C2B0EC63F226756AA39C026D930A9C0906A9EB0E363F7207678505005713#256,
  0x95BF4A82E2B87A147BB12BAE0CB61B3892D28E9BE5D5BE0D7CDCEFB70BDBDF21#256,
  0x86D3D2D4F1D4E24268DDB3F81FDA836E81BE16CDF6B9265B6FB077E118B74777#256,
  0x88085AE6FF0F6A7066063BCA11010B5C8F659EFFF862AE69616BFFD3166CCF45#256,
  0xA00AE278D70DD2EE4E0483543903B3C2A7672661D06016F74969474D3E6E77DB#256,
  0xAED16A4AD9D65ADC40DF0B6637D83BF0A9BCAE53DEBB9EC547B2CF7F30B5FFE9#256,
  0xBDBDF21CCABAC28A53B3933024B4A3A6BAD03605CDD7069354DE572923D967BF#256,
  0xB3667A2EC4614AB85D681B022A6F2B94B40BBE37C30C8EA15A05DF1B2D02EF8D#256]

/-- Every entry that the generation procedure computes is the printed one. -/
theorem test_lut_is_the_printed_table : (List.range 256).all (fun i =>
    lut (BitVec.ofNat 8 i) = ((lutRows.getD (i / 8) 0#256) >>> (32 * (7 - i % 8))).setWidth 32) = true := by
  decide +kernel

/-- T2, T3: RINV[0x44] = 0x6C, RINV[0x2D] = 0xFF. -/
theorem test_rinv_entries : rinv 0x44#8 = 0x6C#8 ∧ rinv 0x2D#8 = 0xFF#8 := by decide +kernel

/-! ## The commands -/

/-- E20. -/
theorem test_set : nextOf (exec (.set 7#32) { accState 1#32 with err := 3#4 }) = some (accState 7#32) := by
  decide +kernel

/-- E22: the bytes 31 32 33 34. -/
theorem test_append_word : (nextOf (exec (.append 4#8 0x34333231#32) (accState 0xFFFFFFFF#32))).map State.acc =
    some 0x641C1F5C#32 := by decide +kernel
/-- E25: the bytes 78 00 00. -/
theorem test_append_three : (nextOf (exec (.append 3#8 0x78#32) (accState 0x12345678#32))).map State.acc =
    some 0xCD550E75#32 := by decide +kernel

/-- E26. -/
theorem test_getacc : nextOf (exec .getacc (accState 0x12345678#32)) =
    some { accState 0x12345678#32 with out := 0x12345678#32 } := by decide +kernel

/-- E27. -/
theorem test_table : (nextOf (exec (.table 2#8) (accState 0#32))).map State.out = some 0xEE0E612C#32 := by
  decide +kernel

/-- B3b: PLEN was 6. -/
theorem test_solveb : nextOf (exec (.solveb 0x44F2B129#32) (patchState 0x4A2CA8A1#32 ⟨1, 2, 3, 4, 5, 6⟩ 6#3)) =
    some (patchState 0x4A2CA8A1#32 ⟨0xB9, 0x4C, 0xC1, 0xC3, 0, 0⟩ 4#3) := by decide +kernel
/-- B2d. -/
theorem test_solveb_ones : (nextOf (exec (.solveb 0xFFFFFFFF#32) (accState 0#32))).map State.patch =
    some ⟨0x62, 0xF5, 0x26, 0x92, 0, 0⟩ := by decide +kernel

/-- A1, found at candidate 219. -/
theorem test_solvea : nextOf (exec (.solvea 0x44F2B129#32) (accState 0x4A2CA8A1#32)) =
    some (patchState 0x4A2CA8A1#32 ⟨0x3C, 0x22, 0x5D, 0x30, 0x6F, 0x40⟩ 6#3) := by decide +kernel
/-- A30: the one-member alphabet; an earlier patch is destroyed. -/
theorem test_solvea_fails : nextOf (exec (.solvea 0x44F2B129#32)
      ((alphaState 0x4A2CA8A1#32 (1#256 <<< 0x41)).setPatch ⟨1, 2, 3, 4, 0, 0⟩ 4#3)) =
    some { alphaState 0x4A2CA8A1#32 (1#256 <<< 0x41) with err := 1#4 } := by decide +kernel

/-- I14: a stale patch. -/
theorem test_applyp : (nextOf (exec .applyp (patchState 0xFFFFFFFF#32 ⟨0x62, 0xF5, 0x26, 0x92, 0, 0⟩ 4#3))).map
    State.acc = some 0x2144DF1C#32 := by decide +kernel
/-- I11. -/
theorem test_applyp_no_patch : nextOf (exec .applyp (accState 5#32)) = some { accState 5#32 with err := 3#4 } := by
  decide +kernel

/-- I1. -/
theorem test_getpatch : (nextOf (exec (.getpatch 0#1) (patchState 0#32 ⟨0x3C, 0x22, 0x5D, 0x30, 0x6F, 0x40⟩ 6#3))).map
    State.out = some 0x305D223C#32 := by decide +kernel
theorem test_getpatch_high : (nextOf (exec (.getpatch 1#1)
    (patchState 0#32 ⟨0x3C, 0x22, 0x5D, 0x30, 0x6F, 0x40⟩ 6#3))).map State.out = some 0x0000406F#32 := by
  decide +kernel

/-- I6. -/
theorem test_getstat : (nextOf (exec .getstat (patchState 0#32 ⟨0x3C, 0x22, 0x5D, 0x30, 0x6F, 0x40⟩ 6#3))).map
    State.out = some 0x005F0610#32 := by decide +kernel
/-- I8. -/
theorem test_getstat_err : nextOf (exec .getstat { alphaState 0#32 (1#256 <<< 0x41) with err := 1#4 }) =
    some { alphaState 0#32 (1#256 <<< 0x41) with err := 1#4, out := 0x00010001#32 } := by decide +kernel

/-- A41: 64 members are left, 0x41 among them. -/
theorem test_setalpha : (nextOf (exec (.setalpha 2#3 2#32) (accState 0#32))).map
    (fun t => (popcount t.alpha, hasByte t.alpha 0x41, hasByte t.alpha 0x42)) = some (64, true, false) := by
  decide +kernel
/-- A45. -/
theorem test_setalpha_top : (nextOf (exec (.setalpha 7#3 0x80000000#32) (accState 0#32))).map
    (fun t => (popcount t.alpha, hasByte t.alpha 0xFF)) = some (96, true) := by decide +kernel

/-- A40. -/
theorem test_getalpha : (List.range 8).map (fun n => (nextOf (exec (.getalpha (BitVec.ofNat 3 n)) (accState 0#32))).map
    State.out) = [some 0#32, some 0xFFFFFFFF#32, some 0xFFFFFFFF#32, some 0x7FFFFFFF#32, some 0#32, some 0#32,
      some 0#32, some 0#32] := by decide +kernel

/-- A43. -/
theorem test_defalpha : nextOf (exec .defalpha (alphaState 9#32 0#256)) = some (accState 9#32) := by decide +kernel

/-- I10. -/
theorem test_nop : nextOf (exec .nop { accState 0#32 with err := 1#4 }) = some { accState 0#32 with err := 1#4 } := by
  decide +kernel

/-! ## The step, reset, the run, the assembler -/

/-- A word placed as the next one is run by the very next step. -/
theorem test_fetch_word : nextOf (step ((accState 3#32).withFetchWord 64 0x0300000000000000)) =
    some { accState 3#32 with out := 3#32 } := by decide +kernel

/-- The first step from reset runs a placed word, whatever the accumulator's reset value is. -/
theorem test_fetch_word_reset : nextOf (step (State.reset.withFetchWord 64 0x0100000000000007)) =
    some (accState 7#32) := by decide +kernel

/-- RS7: a reset in the middle of a SOLVEA leaves no patch. -/
theorem test_reset_midway : (nextOf (step { patchState 0#32 ⟨1, 2, 3, 4, 0, 0⟩ 4#3 with
    port := [.reset (some 0x0500000044F2B129#64)], err := 4#4 })).map (fun t => (t.patch, t.plen, t.err, statusWord t)) =
    some (Patch.zero, 0#3, 0#4, 0x005F0000#32) := by decide +kernel

/-- `APPENDS "123456789"` in source form: the three words of program P1. -/
theorem test_assemble_text :
    (assembleLine ['A', 'P', 'P', 'E', 'N', 'D', 'S', ' ', '"', '1', '2', '3', '4', '5', '6', '7', '8', '9', '"', ' ', ';',
      'x']).toOption = some [0x0204000034333231#64, 0x0204000038373635#64, 0x0201000000000039#64] := by decide +kernel

/-- A hexadecimal operand, two lines, a raw word that R64 would reject, and an operand that does not fit its field. -/
theorem test_assemble_lines :
    (assemble ['S', 'E', 'T', ' ', '0', 'x', 'F', 'F', '\n', 'G', 'E', 'T', 'P', 'A', 'T', 'C', 'H', ' ', '2']).toOption =
      some [0x01000000000000FF#64, 0x0702000000000000#64] ∧
    (assembleLine ['T', 'A', 'B', 'L', 'E', ' ', '2', '5', '6']).toOption = none := by decide +kernel

/-- ALPHAONE 0x41 of program P4. -/
theorem test_alphaone : (Pseudo.alphaone 0x41#8).expand = (List.range 8).map
    (fun n => .setalpha (BitVec.ofNat 3 n) (if n = 2 then 2#32 else 0#32)) := by decide +kernel

/-! ## Witnesses: concrete states and operands that meet the hypotheses of a statement, clause by clause -/

/-- DecodeReadsBackEveryEncodedCommand, EncodeRestoresEveryLegalWord. -/
theorem witness_well_formed_and_legal : (Instr.append 4#8 0xFFFFFFFF#32).wf = true ∧
    decode 0x02040000FFFFFFFF#64 = .ok (.append 4#8 0xFFFFFFFF#32) := by decide +kernel

/-- LegalWordsMatchExactlyOneTableRow: a row that accepts a word, and a word with none. -/
theorem witness_table_row : (∃ r ∈ opcodeTable, r.accepts 0x02040000FFFFFFFF#64 = true) ∧
    ¬ ∃ r ∈ opcodeTable, r.accepts 0x0205000000000000#64 = true := by decide +kernel

/-- DecodeChecksDecideInOrder: operands for each of the five clauses, at the limits. -/
theorem witness_decode_checks :
    0x0C < (0x0D#8).toNat ∧
    ((0x0C#8).toNat ≤ 0x0C ∧ (1#16) ≠ 0#16) ∧
    ((0x02#8).toNat ≤ 0x0C ∧ ¬ NLegal (0x02#8).toNat (5#8).toNat) ∧
    (NLegal (0x02#8).toNat (1#8).toNat ∧ ¬ ImmLegal (0x02#8).toNat (1#8).toNat (0x100#32).toNat) ∧
    (NLegal (0x02#8).toNat (4#8).toNat ∧ ImmLegal (0x02#8).toNat (4#8).toNat (0xFFFFFFFF#32).toNat) := by
  simp [NLegal, ImmLegal]

/-- CommandRule's four clauses for APPEND, the row with both operand checks. -/
theorem witness_command_rule :
    (1#16) ≠ 0#16 ∧ ¬ (5#8).toNat ≤ 4 ∧ ((3#8).toNat ≤ 4 ∧ ¬ (0x01000000#32).toNat < 2 ^ (8 * (3#8).toNat)) ∧
    ((3#8).toNat ≤ 4 ∧ (0x00FFFFFF#32).toNat < 2 ^ (8 * (3#8).toNat)) := by decide +kernel

/-- StepRunsTheDecodedCommand: a pending word that decodes, and one that does not. -/
theorem witness_step_runs :
    (∃ s : State, ∃ rest, s.port = .command 0x0300000000000000#64 :: rest) ∧
    decode 0x0300000000000000#64 = .ok .getacc ∧
    decode 0x0300000000000001#64 = .error (.reservedImm 1#32) :=
  ⟨⟨(accState 1#32).withFetchWord 64 0x0300000000000000, [], rfl⟩, by decide +kernel, by decide +kernel⟩

/-- StepIgnoresLaterActions, EveryStepKeepsTheRegisterInvariant: a step with an action pending, from a state that meets
the invariant with a binary patch stored. -/
theorem witness_step_next :
    (patchState 7#32 ⟨7, 0, 0, 0, 0, 0⟩ 4#3).Inv ∧
    step { patchState 7#32 ⟨7, 0, 0, 0, 0, 0⟩ 4#3 with port := [.command 0x0600000000000000#64] } =
      .next (patchState 0#32 ⟨7, 0, 0, 0, 0, 0⟩ 4#3) := by
  refine ⟨⟨.inr (.inl rfl), ?_, fun _ => ⟨rfl, rfl⟩, ?_⟩, ?_⟩
  · intro h; exact absurd h (by decide)
  · decide
  · exact of_nextOf (by decide +kernel)

/-- BlockWaitsUnchangedForTheHost. -/
theorem witness_idle : (accState 1#32).port = [] := rfl

/-- StepsFromThePortAreTheRun: a run of two words, the second a read. -/
theorem witness_run : issueAll [0x0100000000000007#64, 0x0300000000000000#64] (accState 1#32) =
    .next ([7#32], { accState 7#32 with out := 7#32 }) := of_nextOf (by decide +kernel)

/-- BlockResetLeavesTheResetState: a reset pending, between commands and during one. -/
theorem witness_block_reset :
    ({ accState 1#32 with port := [.reset none] } : State).port = .reset none :: [] ∧
    ({ accState 2#32 with port := [.reset (some 0x0500000000000000#64)] } : State).port =
      .reset (some 0x0500000000000000#64) :: [] := by decide +kernel

/-- OnlySetAppendApplypChangeAcc: each of the three commands changing ACC. -/
theorem witness_acc_writers :
    (nextOf (exec (.set 7#32) (accState 1#32))).map (·.acc) = some 7#32 ∧
    (nextOf (exec (.append 1#8 0#32) (accState 1#32))).map (·.acc) = some 0x77073096#32 ∧
    (nextOf (exec .applyp (patchState 7#32 ⟨7, 0, 0, 0, 0, 0⟩ 4#3))).map (·.acc) = some 0#32 := by decide +kernel

/-- OnlyTheSolversChangeThePatch, SolvebDependsOnlyOnAccAndTarget, StalePatchMissesTheTarget (SOLVEB): a patch stored. -/
theorem witness_patch_writer : exec (.solveb 0#32) (accState 7#32) =
    .next (patchState 7#32 ⟨7, 0, 0, 0, 0, 0⟩ 4#3) ∧
    (patchState 7#32 ⟨7, 0, 0, 0, 0, 0⟩ 4#3).patch ≠ (accState 7#32).patch :=
  ⟨of_nextOf (by decide +kernel), by decide +kernel⟩

/-- OnlySetalphaDefalphaChangeAlpha: both commands changing ALPHA. -/
theorem witness_alpha_writers :
    (nextOf (exec (.setalpha 0#3 1#32) (accState 1#32))).map (fun t => hasByte t.alpha 0) = some true ∧
    hasByte (accState 1#32).alpha 0 = false ∧
    (nextOf (exec .defalpha (alphaState 1#32 0#256))).map (fun t => popcount t.alpha) = some 95 := by decide +kernel

/-- OnlyReadCommandsChangeOut, ErrReportsTheLastCommandOnly, CommandsLeaveTheHostAlone: a read word changing OUT, and
words on both sides of the ERR clause. -/
theorem witness_issue :
    issue 0x0300000000000000#64 (accState 5#32) = .next { accState 5#32 with out := 5#32 } ∧
    ({ accState 5#32 with out := 5#32 } : State).out ≠ (accState 5#32).out ∧
    decode 0x0300000000000000#64 = .ok .getacc ∧ decode 0x0000000000000000#64 = .ok .nop ∧
    decode 0x0800000000000000#64 = .ok .getstat :=
  ⟨of_nextOf (by decide +kernel), by decide +kernel⟩

/-- OtherCommandsDoNotReadAcc: SET, and a command that is not SET, neither of them a reader of ACC. -/
theorem witness_non_readers :
    exec (.set 7#32) (accState 1#32) = .next (accState 7#32) ∧ exec .nop (accState 1#32) = .next (accState 1#32) ∧
    (∀ v, Instr.nop ≠ .set v) := by
  exact ⟨of_nextOf (by decide +kernel), of_nextOf (by decide +kernel), fun v => by simp⟩

/-- ReadCommandsAreIdempotent, CommandsWithoutErrorsOfTheirOwn: each kind of command that they name completes. -/
theorem witness_reads :
    (nextOf (exec .getacc (accState 1#32))).isSome ∧ (nextOf (exec (.getpatch 1#1) (accState 1#32))).isSome ∧
    (nextOf (exec (.getalpha 7#3) (accState 1#32))).isSome ∧ (nextOf (exec (.table 255#8) (accState 1#32))).isSome ∧
    (nextOf (exec .getstat (accState 1#32))).isSome ∧ (Instr.getstat).wf = true := by decide +kernel

/-- BinaryPatchExistsAndIsUnique: a four-byte sequence that forces a target. -/
theorem witness_forcing_bytes : crcAppend 0#32 [0x62, 0xF5, 0x26, 0x92] = 0xFFFFFFFF#32 := by decide +kernel

/-- BinaryRoundTripReachesTheTarget: what SOLVEB leaves, with other registers changed in between. -/
theorem witness_round_trip :
    let s1 := patchState 7#32 ⟨7, 0, 0, 0, 0, 0⟩ 4#3
    let u := { s1 with out := 9#32, alpha := 0#256 }
    u.acc = s1.acc ∧ u.patch = s1.patch ∧ u.plen = s1.plen := by decide +kernel

/-- SolveaFindsAPatchExactlyWhenOneExists, first clause: the empty alphabet. -/
theorem witness_empty_alphabet : memberCount (0#256) = 0 := by
  simp [memberCount]

/-- SolveaFindsAPatchExactlyWhenOneExists, third clause; SmallAlphabetMissesSomeTarget: a patch within the one-member
alphabet (W5), which has at most 40 members. -/
theorem witness_forces_within : ForcesWithin 0x4A2CA8A1#32 0x1E207151#32 (1#256 <<< 0x41)
    [0x41, 0x41, 0x41, 0x41, 0x41, 0x41] := by
  refine ⟨rfl, ?_, by decide +kernel⟩
  simp [InAlphabet]

theorem witness_one_member : memberCount (1#256 <<< 0x41) = 1 := by
  unfold memberCount
  decide +kernel

/-- SolveaFindsAPatchExactlyWhenOneExists, second clause: under the one-member alphabet only `AAAAAA` could force the
target of W5, and it does not. -/
theorem witness_nothing_forces :
    ¬ ∃ bs, ForcesWithin 0x4A2CA8A1#32 0x44F2B129#32 (1#256 <<< 0x41) bs := by
  have only : ∀ b : Byte, InAlphabet (1#256 <<< 0x41) b → b = 0x41#8 := by
    intro b hb
    have := forall_byte (fun b => decide (InAlphabet (1#256 <<< 0x41) b → b = 0x41#8)) (by decide +kernel) b
    exact of_decide_eq_true this hb
  rintro ⟨bs, hlen, hin, hcrc⟩
  have hbs : bs = List.replicate 6 0x41#8 := List.eq_replicate_iff.mpr ⟨hlen, fun b hb => only b (hin b hb)⟩
  rw [hbs] at hcrc
  exact absurd hcrc (by decide +kernel)

/-- SearchReturnsTheFirstCandidate: the member list of the one-member alphabet. -/
theorem witness_lists_members : ListsMembers (1#256 <<< 0x41) [0x41#8] := by
  refine ⟨by simp, fun b => ?_⟩
  have := forall_byte (fun b => decide (b ∈ [0x41#8] ↔ InAlphabet (1#256 <<< 0x41) b)) (by decide +kernel) b
  exact of_decide_eq_true this

/-- FullAlphabetSucceedsAtTheFirstCandidate. -/
theorem witness_full_alphabet : ∀ b, InAlphabet (BitVec.allOnes 256) b := by
  intro b
  rw [InAlphabet, BitVec.getLsbD_allOnes]
  simpa using b.isLt

/-- PrintableRoundTripReachesTheTarget, StalePatchMissesTheTarget (SOLVEA): a search that succeeds (A31). -/
theorem witness_printable_round_trip :
    exec (.solvea 0x1E207151#32) (alphaState 0x4A2CA8A1#32 (1#256 <<< 0x41)) = .next
      ((alphaState 0x4A2CA8A1#32 (1#256 <<< 0x41)).setPatch ⟨0x41, 0x41, 0x41, 0x41, 0x41, 0x41⟩ 6#3) ∧
    ((alphaState 0x4A2CA8A1#32 (1#256 <<< 0x41)).setPatch ⟨0x41, 0x41, 0x41, 0x41, 0x41, 0x41⟩ 6#3).err = 0#4 :=
  ⟨of_nextOf (by decide +kernel), by decide +kernel⟩

/-- StalePatchMissesTheTarget: the stored patch applied after ACC has changed (P6). -/
theorem witness_stale_patch :
    exec .applyp (patchState 0xFFFFFFFF#32 ⟨0x62, 0xF5, 0x26, 0x92, 0, 0⟩ 4#3) =
      .next (patchState 0x2144DF1C#32 ⟨0x62, 0xF5, 0x26, 0x92, 0, 0⟩ 4#3) ∧
    exec (.solveb 0xFFFFFFFF#32) (accState 0#32) = .next (patchState 0#32 ⟨0x62, 0xF5, 0x26, 0x92, 0, 0⟩ 4#3) :=
  ⟨of_nextOf (by decide +kernel), of_nextOf (by decide +kernel)⟩

/-- ApplypAppendsTheStoredPatch: a state for each of its clauses. -/
theorem witness_patch_lengths : (accState 0#32).plen = 0#3 ∧
    (patchState 0#32 ⟨7, 0, 0, 0, 0, 0⟩ 4#3).plen = 4#3 ∧ (patchState 0#32 ⟨1, 2, 3, 4, 5, 6⟩ 6#3).plen = 6#3 ∧
    (4#3 : BitVec 3) ≠ 0#3 := by decide +kernel

/-- GetpatchReadsThePackedBytes: a state within the invariant with no patch, and one with a binary patch. -/
theorem witness_getpatch_lengths : (accState 1#32).Inv ∧ (accState 1#32).plen = 0#3 ∧
    (patchState 0#32 ⟨7, 0, 0, 0, 0, 0⟩ 4#3).Inv ∧ (patchState 0#32 ⟨7, 0, 0, 0, 0, 0⟩ 4#3).plen = 4#3 :=
  ⟨⟨by decide +kernel, by decide +kernel, by decide +kernel, by decide +kernel⟩, rfl,
    ⟨by decide +kernel, by decide +kernel, by decide +kernel, by decide +kernel⟩, rfl⟩

/-- RunObservesOutAfterEachRead: a read word, a word that is none, and a read opcode that fails decoding. -/
theorem witness_observes : Observes [0x0300000000000000#64, 0x0300000000000001#64] (accState 1#32) [1#32]
    { accState 1#32 with out := 1#32, err := 6#4 } := by
  refine .read (t := { accState 1#32 with out := 1#32 }) (of_nextOf (by decide +kernel)) (.inl (by decide +kernel)) ?_
  refine .quiet (of_nextOf (by decide +kernel)) ?_ (.none _)
  have h : decode 0x0300000000000001#64 = .error (.reservedImm 1#32) := by decide +kernel
  simp [ReadsOut, h]

/-- SourceLinesAssembleToTheirWords, PseudoLinesAssembleToTheirExpansions: a number in each notation, at and beyond the
limit of an 8-bit field. -/
theorem witness_numerals : Numeral ['2', '5', '5'] 255 ∧ Numeral ['2', '5', '6'] 256 ∧ Numeral ['0', 'x', 'F', 'F'] 255 := by
  refine ⟨.inl ⟨by simp, by simp [IsDecDigit], by decide⟩, .inl ⟨by simp, by simp [IsDecDigit], by decide⟩,
    .inr ⟨['F', 'F'], rfl, by simp, by simp [IsHexDigit, IsDecDigit], by decide⟩⟩

/-- The same at and beyond the limits of a 32-bit and of a 64-bit field. -/
theorem witness_wide_numerals : Numeral ('0' :: 'x' :: List.replicate 8 'F') (2 ^ 32 - 1) ∧
    Numeral ('0' :: 'x' :: '1' :: List.replicate 8 '0') (2 ^ 32) ∧
    Numeral ('0' :: 'x' :: List.replicate 16 'F') (2 ^ 64 - 1) ∧
    Numeral ('0' :: 'x' :: '1' :: List.replicate 16 '0') (2 ^ 64) := by
  refine ⟨.inr ⟨_, rfl, ?_, ?_, ?_⟩, .inr ⟨_, rfl, ?_, ?_, ?_⟩, .inr ⟨_, rfl, ?_, ?_, ?_⟩, .inr ⟨_, rfl, ?_, ?_, ?_⟩⟩
  all_goals first | decide +kernel | simp [IsHexDigit, IsDecDigit]

/-- SourceLinesAssembleToTheirWords, PseudoLinesAssembleToTheirExpansions: the ways a line may end, a text for APPENDS,
and lines without a line feed that assemble. -/
theorem witness_lines : LineEnd [] ∧ LineEnd [';', '"'] ∧ LineEnd [' ', ';'] ∧
    (∀ c ∈ ['a', ';', ' ', '~'], c.toNat < 128 ∧ c ≠ '"' ∧ c ≠ '\n') ∧ '\n' ∉ ['N', 'O', 'P'] ∧
    assembleLine ['N', 'O', 'P'] = .ok [0#64] ∧ assemble ['N', 'O', 'P'] = .ok [0#64] :=
  ⟨.inl rfl, .inr ⟨_, .inl rfl⟩, .inr ⟨_, .inr rfl⟩, by simp, by simp, by decide +kernel, by decide +kernel⟩

/-- `GETPATCH 255` is emitted as written, though R64 rejects it; `GETPATCH 256` does not fit; a tab and a carriage return
are white space (log 7). -/
theorem test_assemble_fields : assembleLine "GETPATCH 255".toList = .ok [0x07FF000000000000#64] ∧
    assembleLine "GETPATCH 256".toList = .error .doesNotFit ∧
    assembleLine "\tAPPEND 1 ,\t0x41 ; A\x0d".toList = .ok [0x0201000000000041#64] ∧
    assembleLine "SET\t7\x0d".toList = .ok [0x0100000000000007#64] := by decide +kernel

end Sys2Proof.Tests
end

section
/-! PROOFS. SET as one step of a run (spec/40_crc_engine.md R81), and what it hides of block reset
(spec/00_scope.md R5, R192). -/

namespace Sys2Proof.Machine

/-- SET's word passes all four checks for every operand: N and RSV are 0, and the whole of IMM is used (R64). -/
theorem decode_encode_set (v : Word) : decode (encode (.set v)) = .ok (.set v) :=
  decode_eq_ok.mpr ⟨.set, by simp [encode, Instr.opcode, Instr.fieldN, Instr.fieldImm, legalN, immUsedMask, buildInstr]⟩

/-- Issuing SET's word writes ACC and ERR and nothing else (R81). -/
theorem issue_encode_set (v : Word) (s : State) :
    issue (encode (.set v)) s = .next ((s.setAcc v).setErr .ok) :=
  issue_ok (decode_encode_set v) s

/-- A run depends on the state before its first word only through that word's outcome. -/
theorem issueAll_cons_congr {w : Command} {s t : State} (h : issue w s = issue w t) (ws : List Command) :
    issueAll (w :: ws) s = issueAll (w :: ws) t := by
  simp only [issueAll, h]

/-- The state after reset holds the accumulator's reset value in ACC alone, so writing ACC replaces it. -/
@[simp] theorem State.setAcc_afterReset (a v : Word) : (State.afterReset a).setAcc v = State.afterReset v := rfl

/-- Settles O16: SET overwrites the one register that holds the reset value, so the two runs agree after their first
word and hence to their end. -/
theorem setHidesTheAccumulatorResetValue : Obligations.SetHidesTheAccumulatorResetValue := by
  intro v a b ws
  refine issueAll_cons_congr ?_ ws
  calc issue (encode (.set v)) (State.afterReset a)
      = .next ((State.afterReset v).setErr .ok) := by rw [issue_encode_set, State.setAcc_afterReset]
    _ = issue (encode (.set v)) (State.afterReset b) := by rw [issue_encode_set, State.setAcc_afterReset]

end Sys2Proof.Machine
end

section
/-! PROOFS. Which registers each command writes, said once for every command (spec/10_state.md section 1), and the
register invariant (R25, R27, R170). -/

namespace Sys2Proof.Machine

/-! ### The writers of each register -/

/-- The commands that may write ACC (R21). -/
def WritesAcc (i : Instr) : Prop := (∃ v, i = .set v) ∨ (∃ n v, i = .append n v) ∨ i = .applyp

/-- The commands that may write PATCH and PLEN (R25). -/
def WritesPatch (i : Instr) : Prop := (∃ v, i = .solveb v) ∨ ∃ v, i = .solvea v

/-- The commands that may write ALPHA (R26). -/
def WritesAlpha (i : Instr) : Prop := (∃ n v, i = .setalpha n v) ∨ i = .defalpha

/-- What R25 says of PATCH and PLEN together: the legal lengths, and zero bytes beyond the length. -/
structure PatchLegal (p : Patch) (n : BitVec 3) : Prop where
  length_legal : n = 0#3 ∨ n = 4#3 ∨ n = 6#3
  no_patch : n = 0#3 → p = ⟨0#8, 0#8, 0#8, 0#8, 0#8, 0#8⟩
  binary_patch : n = 4#3 → p.b4 = 0#8 ∧ p.b5 = 0#8

theorem patchLegal_zero : PatchLegal Patch.zero 0#3 := ⟨.inl rfl, fun _ => rfl, by simp⟩

theorem patchLegal_patchOfQuad (q : Quad) : PatchLegal (patchOfQuad q) 4#3 :=
  ⟨.inr (.inl rfl), by simp, fun _ => ⟨rfl, rfl⟩⟩

theorem patchLegal_six (p : Patch) : PatchLegal p 6#3 := ⟨.inr (.inr rfl), by simp, by simp⟩

/-- What command `i` can do to the state `s`: the seven kinds of end, each with the commands that can have it. The
values are those that the frame and the invariant need; the full effect of a command is its own `exec` definition. -/
inductive Effect (i : Instr) (s : State) : State → Prop where
  /-- NOP writes nothing (R150). -/
  | keeps (hi : i = .nop) : Effect i s s
  /-- APPEND and APPLYP can end in `raise` (R82, R153, R172). -/
  | raises (e : ErrCode) (hi : (∃ n v, i = .append n v) ∨ i = .applyp) : Effect i s (raise e s)
  /-- A new accumulator. -/
  | acc (v : Word) (hi : WritesAcc i) : Effect i s ((s.setAcc v).setErr .ok)
  /-- A new patch with its length, the cleared one of a failed SOLVEA among them (R104, R127, R173). -/
  | patch (p : Patch) (n : BitVec 3) (e : ErrCode) (hi : WritesPatch i) (hp : PatchLegal p n) :
      Effect i s ((s.setPatch p n).setErr e)
  /-- A new alphabet. -/
  | alpha (A : Alphabet) (hi : WritesAlpha i) : Effect i s ((s.setAlpha A).setErr .ok)
  /-- A read command other than GETSTAT. -/
  | reads (v : Word) (hi : isReadInstr i = true) (hne : i ≠ .getstat) : Effect i s (readOut v s)
  /-- GETSTAT keeps ERR (R152). -/
  | status (hi : i = .getstat) : Effect i s (s.setOut (statusWord s))

/-- The effect of a command whose arm answers `next u`. -/
theorem Effect.of_next {i : Instr} {s t u : State} (h : (.next u : Host.Outcome State Fault Refusal) = .next t)
    (hu : Effect i s u) : Effect i s t :=
  Host.Outcome.next.inj h ▸ hu

theorem finishSolve_effect (imm : Word) (s : State) (r : SearchResult) : Effect (.solvea imm) s (finishSolve r s) := by
  have hi : WritesPatch (.solvea imm) := .inr ⟨imm, rfl⟩
  cases r with
  | ok p => exact .patch p _ _ hi (patchLegal_six p)
  | invalidAlphabet | noSolutionFound => exact .patch _ _ _ hi patchLegal_zero

theorem execAppend_effect {n : Byte} {imm : Word} {s t : State} (h : execAppend n imm s = .next t) :
    Effect (.append n imm) s t := by
  unfold execAppend at h
  split_ifs at h
  · exact .of_next h (.raises _ (.inl ⟨n, imm, rfl⟩))
  · exact .of_next h (.raises _ (.inl ⟨n, imm, rfl⟩))
  · exact .of_next h (.acc _ (.inr (.inl ⟨n, imm, rfl⟩)))

theorem execApplyp_effect {s t : State} (h : execApplyp s = .next t) : Effect .applyp s t := by
  unfold execApplyp at h
  split_ifs at h
  · exact .of_next h (.raises _ (.inr rfl))
  · exact .of_next h (.acc _ (.inr (.inr rfl)))

/-- Everything a command can do. -/
theorem exec_effect {i : Instr} {s t : State} (h : exec i s = .next t) : Effect i s t := by
  cases i with
  | append n imm => exact execAppend_effect h
  | applyp => exact execApplyp_effect h
  | nop => exact .of_next h (.keeps rfl)
  | getstat => exact .of_next h (.status rfl)
  | set imm => exact .of_next h (.acc _ (.inl ⟨imm, rfl⟩))
  | solveb imm => exact .of_next h (.patch _ _ _ (.inl ⟨imm, rfl⟩) (patchLegal_patchOfQuad _))
  | solvea imm => exact .of_next h (finishSolve_effect imm s _)
  | setalpha n imm => exact .of_next h (.alpha _ (.inl ⟨n, imm, rfl⟩))
  | defalpha => exact .of_next h (.alpha _ (.inr rfl))
  | getacc | getpatch | getalpha | table => exact .of_next h (.reads _ rfl (by simp))

/-! ### Frames: a register that changes names its writers -/

section Frames
variable {i : Instr} {s t : State}

theorem Effect.acc_eq_or (h : Effect i s t) : t.acc = s.acc ∨ WritesAcc i := by
  cases h with
  | acc v hi => exact .inr hi
  | _ => exact .inl rfl

theorem Effect.patch_plen_eq_or (h : Effect i s t) : (t.patch = s.patch ∧ t.plen = s.plen) ∨ WritesPatch i := by
  cases h with
  | patch p n e hi => exact .inr hi
  | _ => exact .inl ⟨rfl, rfl⟩

theorem Effect.alpha_eq_or (h : Effect i s t) : t.alpha = s.alpha ∨ WritesAlpha i := by
  cases h with
  | alpha A hi => exact .inr hi
  | _ => exact .inl rfl

theorem Effect.out_eq_or (h : Effect i s t) : t.out = s.out ∨ isReadInstr i = true := by
  cases h with
  | reads v hi => exact .inr hi
  | status hi => exact .inr (hi ▸ rfl)
  | _ => exact .inl rfl

end Frames

/-- A command word either is legal and is executed, or fails a check and writes ERR alone (R67). -/
theorem issue_cases {w : Command} {s t : State} (h : issue w s = .next t) :
    (∃ i, decode w = .ok i ∧ exec i s = .next t) ∨
      ∃ e, decode w = .error e ∧ t = raise (errOfDecode e) s := by
  cases hd : decode w with
  | ok i => exact .inl ⟨i, rfl, issue_ok hd s ▸ h⟩
  | error e => exact .inr ⟨e, rfl, (Host.Outcome.next.inj (issue_error hd s ▸ h)).symm⟩

/-- Settles O17 by the frame of ACC over every kind of effect. -/
theorem onlySetAppendApplypChangeAcc : Obligations.OnlySetAppendApplypChangeAcc :=
  fun _ _ _ h hne => (exec_effect h).acc_eq_or.resolve_left hne

/-- Settles O18 by the frame of PATCH and PLEN, which are written together. -/
theorem onlyTheSolversChangeThePatch : Obligations.OnlyTheSolversChangeThePatch :=
  fun _ _ _ h hne => (exec_effect h).patch_plen_eq_or.resolve_left fun ⟨hpatch, hplen⟩ =>
    hne.elim (· hpatch) (· hplen)

/-- Settles O19 by the frame of ALPHA. -/
theorem onlySetalphaDefalphaChangeAlpha : Obligations.OnlySetalphaDefalphaChangeAlpha :=
  fun _ _ _ h hne => (exec_effect h).alpha_eq_or.resolve_left hne

/-- Settles O20: a word that fails decoding leaves OUT alone, and of the commands only the reads write it. -/
theorem onlyReadCommandsChangeOut : Obligations.OnlyReadCommandsChangeOut := by
  intro w s t h hne
  obtain ⟨i, hd, hx⟩ | ⟨e, -, rfl⟩ := issue_cases h
  · have hread : isReadInstr i = true := (exec_effect hx).out_eq_or.resolve_left hne
    exact (isReadWord_iff w).mp (by simp [isReadWord, hd, hread])
  · exact absurd rfl hne

/-! ### The register invariant -/

/-- Every error code is one of 0 to 6 (R170). -/
theorem ErrCode.code_toNat_le (e : ErrCode) : e.code.toNat ≤ 6 := by cases e <;> decide

/-- The invariant speaks of PATCH with PLEN and of ERR, and of nothing else. -/
theorem State.inv_iff {s : State} : s.Inv ↔ PatchLegal s.patch s.plen ∧ s.err.toNat ≤ 6 :=
  ⟨fun ⟨hlen, hnone, hbin, herr⟩ => ⟨⟨hlen, hnone, hbin⟩, herr⟩,
    fun ⟨⟨hlen, hnone, hbin⟩, herr⟩ => ⟨hlen, hnone, hbin, herr⟩⟩

@[simp] theorem State.inv_setOut {s : State} {v : Word} : (s.setOut v).Inv ↔ s.Inv := by simp [State.inv_iff]

@[simp] theorem State.inv_setPort {s : State} {p : List HostAction} : (s.setPort p).Inv ↔ s.Inv := by
  simp [State.inv_iff]

/-- A write of ERR always leaves a defined code, so only the patch is left to check. -/
@[simp] theorem State.inv_setErr {s : State} {e : ErrCode} : (s.setErr e).Inv ↔ PatchLegal s.patch s.plen := by
  simp [State.inv_iff, ErrCode.code_toNat_le]

theorem afterReset_inv (v : Word) : (State.afterReset v).Inv := State.inv_iff.mpr ⟨patchLegal_zero, by simp⟩

theorem blockReset_inv (s : State) : (blockReset s).Inv := State.inv_iff.mpr ⟨patchLegal_zero, by simp⟩

/-- Every command keeps the register invariant: the solvers write a legal patch and no other command writes one, and
whoever writes ERR writes a code of R170. -/
theorem Effect.inv {i : Instr} {s t : State} (h : Effect i s t) (hs : s.Inv) : t.Inv := by
  have hpatch : PatchLegal s.patch s.plen := (State.inv_iff.mp hs).1
  cases h with
  | keeps => exact hs
  | status => exact State.inv_setOut.mpr hs
  | patch p n e _ hp => exact State.inv_setErr.mpr hp
  | raises | acc | alpha | reads => exact State.inv_setErr.mpr hpatch

/-- Settles O13: no patch, length 0 and ERR OK, whatever ACC holds. -/
theorem resetMeetsTheRegisterInvariant : Obligations.ResetMeetsTheRegisterInvariant :=
  ⟨afterReset_inv _, afterReset_inv⟩

/-- Settles O12, by what a step can do: wait, reset, execute a legal word, or end an illegal one with its error. -/
theorem everyStepKeepsTheRegisterInvariant : Obligations.EveryStepKeepsTheRegisterInvariant := by
  intro s t hs h
  obtain ⟨-, rfl⟩ | ⟨_, rest, -, rfl⟩ | ⟨_, rest, i, -, -, hx⟩ | ⟨_, rest, e, -, -, rfl⟩ := step_cases h
  · exact hs
  · exact blockReset_inv _
  · exact (exec_effect hx).inv (State.inv_setPort.mpr hs)
  · exact State.inv_setErr.mpr (State.inv_iff.mp hs).1

end Sys2Proof.Machine
end

section
/-! PROOFS. What a command does not read: ERR before it, and for most commands ACC (spec/10_state.md R21, R27;
spec/60_exceptions.md R178). -/

namespace Sys2Proof.Machine

/-- Every end of SOLVEA overwrites ERR. -/
theorem finishSolve_ignores_err (r : SearchResult) (s : State) (e : BitVec 4) :
    finishSolve r { s with err := e } = finishSolve r s := by
  cases r <;> rfl

/-- A command other than NOP and GETSTAT neither reads ERR nor leaves anything of it (R27, R178). -/
theorem exec_ignores_err {i : Instr} (hnop : i ≠ .nop) (hstat : i ≠ .getstat) (s : State) (e : BitVec 4) :
    exec i { s with err := e } = exec i s := by
  cases i with
  | nop => exact absurd rfl hnop
  | getstat => exact absurd rfl hstat
  | solvea imm => exact congrArg Host.Outcome.next (finishSolve_ignores_err (ascSolve s.acc imm s.alpha) s e)
  | _ => rfl

/-- Settles O21: NOP and GETSTAT write no ERR, a failed check overwrites it, and so does every other command. -/
theorem errReportsTheLastCommandOnly : Obligations.ErrReportsTheLastCommandOnly := by
  intro w s t h
  constructor
  · rintro (hd | hd) <;> rw [issue_ok hd] at h <;> obtain rfl := Host.Outcome.next.inj h <;> rfl
  · intro hnop hstat e
    obtain ⟨i, hd, hx⟩ | ⟨f, hd, rfl⟩ := issue_cases h
    · rw [issue_ok hd, ← hx]
      rw [hd] at hnop hstat
      exact exec_ignores_err (fun hi => hnop (congrArg _ hi)) (fun hi => hstat (congrArg _ hi)) s e
    · exact issue_error hd _

/-- The status word has no field of ACC (R29). -/
@[simp] theorem statusWord_setAcc (s : State) (a : Word) : statusWord (s.setAcc a) = statusWord s := rfl

/-- The commands that read ACC (R21). -/
def readsAcc : Instr → Bool
  | .append _ _ | .getacc | .solveb _ | .solvea _ | .applyp => true
  | _ => false

/-- SET overwrites ACC without reading it (R81). -/
theorem exec_set_setAcc (v a : Word) (s : State) : exec (.set v) (s.setAcc a) = exec (.set v) s := rfl

/-- A command that neither reads nor writes ACC carries whatever ACC holds through. -/
theorem exec_setAcc_of_not_readsAcc {i : Instr} {s t : State} (hread : readsAcc i = false) (hset : ∀ v, i ≠ .set v)
    (h : exec i s = .next t) (a : Word) : exec i (s.setAcc a) = .next (t.setAcc a) := by
  cases i with
  | append | getacc | solveb | solvea | applyp => cases hread
  | set v => exact absurd rfl (hset v)
  | nop | getpatch | getstat | setalpha | getalpha | defalpha | table =>
    obtain rfl := Host.Outcome.next.inj h
    rfl

/-- Settles O23: SET replaces ACC outright, and the commands left neither read nor write it. -/
theorem otherCommandsDoNotReadAcc : Obligations.OtherCommandsDoNotReadAcc := by
  intro i s t a h happend hgetacc hsolveb hsolvea happlyp
  have hread : readsAcc i = false := by
    cases i with
    | append n v => exact absurd rfl (happend n v)
    | getacc => exact absurd rfl hgetacc
    | solveb v => exact absurd rfl (hsolveb v)
    | solvea v => exact absurd rfl (hsolvea v)
    | applyp => exact absurd rfl happlyp
    | _ => rfl
  constructor
  · rintro v rfl
    exact (exec_set_setAcc v a s).trans h
  · exact fun hset => exec_setAcc_of_not_readsAcc hread hset h a

end Sys2Proof.Machine
end

section
/-! PROOFS. The fields of the status word (spec/10_state.md R29). -/

namespace Sys2Proof.Machine

/-- Counting along the positions 0 to 255 and counting the set of members give the same number (R26). -/
theorem popcount_eq_memberCount (A : Alphabet) : popcount A = memberCount A := by
  calc popcount A = Nat.count (fun j => A.getLsbD j = true) 256 := by simp [popcount, Nat.count]
    _ = ((Finset.range 256).filter fun j => A.getLsbD j = true).card := Nat.count_eq_card_filter_range _ _
    _ = memberCount A := by
      rw [memberCount, Finset.card_filter, Finset.card_filter,
        Fin.sum_univ_eq_sum_range (fun j => if A.getLsbD j = true then 1 else 0) 256]

/-- An alphabet has at most 256 members, so ACOUNT fits its nine bits. -/
theorem memberCount_le (A : Alphabet) : memberCount A ≤ 256 := by
  simpa only [memberCount, Finset.card_univ, Fintype.card_fin] using
    Finset.card_filter_le (Finset.univ : Finset (Fin 256)) fun j => A.getLsbD j = true

/-- PVALID is set exactly when a patch is stored (R25). -/
theorem pvalid_bit_iff (s : State) : (pvalid s).getLsbD 0 = true ↔ s.plen ≠ 0#3 := by
  unfold pvalid
  split_ifs with h <;> simp [h]

/-! One lemma per row of R29's table, low bits first: the fields below the row's own are skipped one by one. -/

section Fields
variable (s : State)

theorem statusWord_err : (statusWord s).extractLsb' 0 4 = s.err := by
  rw [statusWord, BitVec.extractLsb'_append_eq_right]

theorem statusWord_pvalid : (statusWord s).extractLsb' 4 1 = pvalid s := by
  rw [statusWord, BitVec.extractLsb'_append_eq_of_le (by decide), BitVec.extractLsb'_append_eq_right]

theorem statusWord_reserved_low : (statusWord s).extractLsb' 5 3 = 0#3 := by
  rw [statusWord]
  iterate 2 rw [BitVec.extractLsb'_append_eq_of_le (by decide)]
  rw [BitVec.extractLsb'_append_eq_right]

theorem statusWord_plen : (statusWord s).extractLsb' 8 3 = s.plen := by
  rw [statusWord]
  iterate 3 rw [BitVec.extractLsb'_append_eq_of_le (by decide)]
  rw [BitVec.extractLsb'_append_eq_right]

theorem statusWord_reserved_mid : (statusWord s).extractLsb' 11 5 = 0#5 := by
  rw [statusWord]
  iterate 4 rw [BitVec.extractLsb'_append_eq_of_le (by decide)]
  rw [BitVec.extractLsb'_append_eq_right]

theorem statusWord_acount : (statusWord s).extractLsb' 16 9 = BitVec.ofNat 9 (popcount s.alpha) := by
  rw [statusWord]
  iterate 5 rw [BitVec.extractLsb'_append_eq_of_le (by decide)]
  rw [BitVec.extractLsb'_append_eq_right]

theorem statusWord_reserved_high : (statusWord s).extractLsb' 25 7 = 0#7 := by
  rw [statusWord]
  iterate 5 rw [BitVec.extractLsb'_append_eq_of_le (by decide)]
  rw [BitVec.extractLsb'_append_eq_left]

/-- Bit 4 is the whole of PVALID. -/
theorem statusWord_bit_four : (statusWord s).getLsbD 4 = (pvalid s).getLsbD 0 := by
  simp [← statusWord_pvalid]

/-- ACOUNT is the number of members itself: 256 at most, it loses nothing in nine bits. -/
theorem statusWord_acount_toNat : ((statusWord s).extractLsb' 16 9).toNat = memberCount s.alpha := by
  rw [statusWord_acount, popcount_eq_memberCount, BitVec.toNat_ofNat]
  exact Nat.mod_eq_of_lt (Nat.lt_of_le_of_lt (memberCount_le s.alpha) (by decide))

end Fields

/-- Settles O51, row by row of R29's table. -/
theorem statusWordHoldsItsFields : Obligations.StatusWordHoldsItsFields :=
  fun s => ⟨statusWord_err s, by rw [statusWord_bit_four, pvalid_bit_iff], statusWord_reserved_low s,
    statusWord_plen s, statusWord_reserved_mid s, statusWord_acount_toNat s, statusWord_reserved_high s⟩

end Sys2Proof.Machine
end

section
/-! PROOFS. The host's later actions, which no command reads or writes (spec/20_memory.md R46; logs 2 and 6), and reads
repeated with no command in between (R45). -/

namespace Sys2Proof.Machine

/-! ### What the host does next stays out of every command -/

section Port
variable {i : Instr} {s t : State}

/-- No effect of a command touches the port. -/
theorem Effect.port_eq (h : Effect i s t) : t.port = s.port := by
  cases h <;> rfl

theorem finishSolve_setPort (r : SearchResult) (s : State) (p : List HostAction) :
    finishSolve r (s.setPort p) = (finishSolve r s).setPort p := by
  cases r <;> rfl

/-- APPEND's two checks look at its operands alone. -/
theorem execAppend_setPort {n : Byte} {imm : Word} (h : execAppend n imm s = .next t) (p : List HostAction) :
    execAppend n imm (s.setPort p) = .next (t.setPort p) := by
  unfold execAppend at h ⊢
  split_ifs at h ⊢ <;> obtain rfl := Host.Outcome.next.inj h <;> rfl

/-- APPLYP's check looks at PLEN, which is no part of the port. -/
theorem execApplyp_setPort (h : execApplyp s = .next t) (p : List HostAction) :
    execApplyp (s.setPort p) = .next (t.setPort p) := by
  unfold execApplyp at h ⊢
  rw [State.setPort_plen]
  split_ifs at h ⊢ <;> obtain rfl := Host.Outcome.next.inj h <;> rfl

/-- A command carries whatever stands on the port through and does the same to the registers (R46). -/
theorem exec_setPort (h : exec i s = .next t) (p : List HostAction) : exec i (s.setPort p) = .next (t.setPort p) := by
  cases i with
  | append n imm => exact execAppend_setPort h p
  | applyp => exact execApplyp_setPort h p
  | solvea imm =>
    obtain rfl := Host.Outcome.next.inj h
    exact congrArg Host.Outcome.next (finishSolve_setPort (ascSolve s.acc imm s.alpha) s p)
  | nop | set | getacc | solveb | getpatch | getstat | setalpha | getalpha | defalpha | table =>
    obtain rfl := Host.Outcome.next.inj h
    rfl

theorem issue_port {w : Command} (h : issue w s = .next t) : t.port = s.port := by
  obtain ⟨_, -, hx⟩ | ⟨_, -, rfl⟩ := issue_cases h
  · exact (exec_effect hx).port_eq
  · rfl

theorem issue_setPort {w : Command} (h : issue w s = .next t) (p : List HostAction) :
    issue w (s.setPort p) = .next (t.setPort p) := by
  obtain ⟨_, hd, hx⟩ | ⟨_, hd, rfl⟩ := issue_cases h
  · rw [issue_ok hd, exec_setPort hx]
  · exact issue_error hd _

theorem perform_port {a : HostAction} (h : perform a s = .next t) : t.port = s.port := by
  cases a with
  | command w => exact issue_port h
  | reset c =>
    obtain rfl := Host.Outcome.next.inj h
    exact blockReset_port s

/-- A host action, a reset among them, does the same to the registers whatever is to follow it. -/
theorem perform_setPort {a : HostAction} (h : perform a s = .next t) (p : List HostAction) :
    perform a (s.setPort p) = .next (t.setPort p) := by
  cases a with
  | command w => exact issue_setPort h p
  | reset c =>
    obtain rfl := Host.Outcome.next.inj h
    rfl

end Port

/-- Settles O8: a step takes its action off the port, and carrying the action out neither reads nor writes the rest. -/
theorem stepIgnoresLaterActions : Obligations.StepIgnoresLaterActions := by
  intro s t a later later' h
  have hperform : perform a (s.setPort later) = .next t := by
    rw [step_action rfl] at h
    exact h
  constructor
  · exact perform_port hperform
  · rw [step_action rfl]
    exact perform_setPort hperform later'

/-! ### Reading twice -/

/-- What a read command delivers comes from no register that the read writes (OUT, ERR), so a second read delivers it
again and leaves the same state (R45). -/
theorem readOut_twice (f : State → Word) (hf : ∀ s v, f (readOut v s) = f s) (s : State) :
    readOut (f (readOut (f s) s)) (readOut (f s) s) = readOut (f s) s := by
  rw [hf]
  rfl

/-- The status word has no field of OUT (R29). -/
@[simp] theorem statusWord_setOut (s : State) (v : Word) : statusWord (s.setOut v) = statusWord s := rfl

@[simp] theorem State.setOut_setOut (s : State) (v w : Word) : (s.setOut v).setOut w = s.setOut w := rfl

/-- GETSTAT keeps ERR, so the status that it puts into OUT is the status still there. -/
theorem execGetstat_twice (s : State) :
    execGetstat (s.setOut (statusWord s)) = .next (s.setOut (statusWord s)) := by
  rw [execGetstat, statusWord_setOut, State.setOut_setOut]

/-- Settles O24, one case per read command, each with what it delivers: ACC, a patch word, an alphabet word, a table
entry, the status word. -/
theorem readCommandsAreIdempotent : Obligations.ReadCommandsAreIdempotent := by
  rintro i s t h (rfl | ⟨n, rfl⟩ | ⟨n, rfl⟩ | ⟨n, rfl⟩ | rfl) <;> obtain rfl := Host.Outcome.next.inj h
  · exact congrArg Host.Outcome.next (readOut_twice State.acc (fun _ _ => rfl) s)
  · exact congrArg Host.Outcome.next (readOut_twice (fun s => patchWord s.patch n) (fun _ _ => rfl) s)
  · exact congrArg Host.Outcome.next (readOut_twice (fun s => alphaWord s.alpha n) (fun _ _ => rfl) s)
  · exact congrArg Host.Outcome.next (readOut_twice (fun _ => lut n) (fun _ _ => rfl) s)
  · exact execGetstat_twice s

end Sys2Proof.Machine
end

section
/-! PROOFS. The encoder against the decoder, and the four checks over the raw fields of a word (spec/30_encoding.md R61
to R65, R171). -/

namespace Sys2Proof.Machine

/-! ### Checks 3 and 4 by opcode number -/

theorem legalN_iff (op : Opcode) (n : Byte) : legalN op n = true ↔ NLegal op.value.toNat n.toNat := by
  cases op <;> simp [NLegal, legalN, Opcode.value, ← BitVec.toNat_inj]

/-- Where no bit of IMM is used, the check looks at all of it. -/
theorem and_not_zeroMask (imm : Word) : imm &&& ~~~0#32 = imm := by rw [BitVec.not_zero, BitVec.and_allOnes]

/-- The check on IMM asks one of three things: nothing where the command has a whole operand, a bound for APPEND, and 0
where IMM is unused (R64). -/
theorem imm_check_iff (op : Opcode) (n : Byte) (imm : Word) :
    imm &&& ~~~ immUsedMask op n = 0#32 ↔ ImmLegal op.value.toNat n.toNat imm.toNat := by
  have unused : imm &&& ~~~0#32 = 0#32 ↔ imm.toNat = 0 := by rw [and_not_zeroMask, ← BitVec.toNat_inj, BitVec.toNat_zero]
  cases op with
  | append => exact append_imm_check n imm
  | set | solveb | solvea | setalpha => simp [ImmLegal, immUsedMask, Opcode.value]
  | _ => exact unused

/-! ### A command is its opcode and its two operand fields -/

@[simp] theorem opcode_buildInstr (op : Opcode) (n : Byte) (imm : Word) : (buildInstr op n imm).opcode = op := by
  cases op <;> rfl

/-- Rebuilding a command from its own fields gives it back: the byte N holds a narrow operand whole. -/
@[simp] theorem buildInstr_fields (i : Instr) : buildInstr i.opcode i.fieldN i.fieldImm = i := by
  cases i with
  | getpatch n | setalpha n _ | getalpha n => simp [Instr.opcode, Instr.fieldN, Instr.fieldImm, buildInstr]
  | _ => rfl

/-- A legal N is the field N of the command it builds: the bits that a narrow operand drops are 0 (R64). -/
theorem fieldN_buildInstr {op : Opcode} {n : Byte} (h : legalN op n = true) (imm : Word) :
    (buildInstr op n imm).fieldN = n := by
  have narrow {w : Nat} (hn : n.toNat < 2 ^ w) : (n.setWidth w).setWidth 8 = n := by
    apply BitVec.eq_of_toNat_eq
    simp [Nat.mod_eq_of_lt hn, Nat.mod_eq_of_lt n.isLt]
  cases op with
  | append | table => rfl
  | getpatch | setalpha | getalpha => exact narrow (Nat.lt_succ_of_le (of_decide_eq_true h))
  | _ => exact (of_decide_eq_true h).symm

/-- A legal IMM is the field IMM of the command it builds: where the command has no such operand, IMM is 0 (R64). -/
theorem fieldImm_buildInstr {op : Opcode} {n : Byte} {imm : Word} (h : imm &&& ~~~ immUsedMask op n = 0#32) :
    (buildInstr op n imm).fieldImm = imm := by
  cases op with
  | set | solveb | solvea | setalpha | append => rfl
  | _ => exact h.symm.trans (and_not_zeroMask imm)

/-- Well-formedness is checks 3 and 4 of R64 on the command's own fields. -/
theorem wf_iff (i : Instr) : i.wf = true ↔
    legalN i.opcode i.fieldN = true ∧ i.fieldImm &&& ~~~ immUsedMask i.opcode i.fieldN = 0#32 := by
  cases i with
  | append n imm =>
    simp only [Instr.wf, Bool.and_eq_true, appendDataOk_iff, ← append_imm_check]
    rfl
  | getpatch n | setalpha n _ | getalpha n =>
    have hn := n.isLt
    simp [Instr.wf, Instr.opcode, Instr.fieldN, Instr.fieldImm, legalN, immUsedMask]
    omega
  | _ => simp [Instr.wf, Instr.opcode, Instr.fieldN, Instr.fieldImm, legalN, immUsedMask]

/-- Settles O1: the encoded word's fields are the command's own, well-formedness is what the checks on N and IMM ask, and
the decoder rebuilds the command from its fields. -/
theorem decodeReadsBackEveryEncodedCommand : Obligations.DecodeReadsBackEveryEncodedCommand := by
  intro i hwf
  obtain ⟨hn, himm⟩ := (wf_iff i).mp hwf
  exact decode_eq_ok.mpr ⟨i.opcode, by simp [encode, hn, himm]⟩

/-- Settles O2: the checks that a legal word passed make its fields those of the command it decodes to, and a word is its
fields. -/
theorem encodeRestoresEveryLegalWord : Obligations.EncodeRestoresEveryLegalWord := by
  intro c i h
  obtain ⟨op, hop, hrsv, hn, himm, rfl⟩ := decode_eq_ok.mp h
  constructor
  · rw [wf_iff, opcode_buildInstr, fieldN_buildInstr hn, fieldImm_buildInstr himm]
    exact ⟨hn, himm⟩
  · calc encode (buildInstr op (cmdN c) (cmdImm c))
        = mkCommand op.value (cmdN c) 0#16 (cmdImm c) := by
          rw [encode, opcode_buildInstr, fieldN_buildInstr hn, fieldImm_buildInstr himm]
      _ = mkCommand (cmdOpc c) (cmdN c) (cmdRsv c) (cmdImm c) := by rw [value_of_opcodeOf hop, hrsv]
      _ = c := mkCommand_fields c

/-! ### The four checks in their order -/

/-- A number up to 0x0C is the number of an opcode (R63). -/
theorem exists_opcode_of_le {v : Byte} (h : v.toNat ≤ 0x0C) : ∃ op : Opcode, op.value = v := by
  cases hop : opcodeOf v with
  | none => exact absurd (opcodeOf_eq_none.mp hop) (Nat.not_lt.mpr h)
  | some op => exact ⟨op, value_of_opcodeOf hop⟩

theorem decode_mkCommand_illegalOpcode {opc : Byte} (h : 0x0C < opc.toNat) (n : Byte) (rsv : BitVec 16) (imm : Word) :
    decode (mkCommand opc n rsv imm) = .error (.illegalOpcode opc) := by
  simp [decode, opcodeOf_eq_none.mpr h]

/-- Checks 2 to 4 over the fields of a word with a legal opcode (R64). -/
theorem decode_mkCommand (op : Opcode) (n : Byte) (rsv : BitVec 16) (imm : Word) :
    decode (mkCommand op.value n rsv imm) =
      if rsv ≠ 0#16 then .error (.reservedRsv rsv)
      else if legalN op n = false then .error (.illegalOperand n)
      else if imm &&& ~~~ immUsedMask op n ≠ 0#32 then .error (.reservedImm imm)
      else .ok (buildInstr op n imm) := by
  simp [decode]

/-- Settles O4: check 1 by the opcode's number, and for each of the thirteen opcodes the three other checks in turn; a
word that passes them all builds a command with its own fields. -/
theorem decodeChecksDecideInOrder : Obligations.DecodeChecksDecideInOrder := by
  intro opc n rsv imm s
  refine ⟨fun h => issue_error (decode_mkCommand_illegalOpcode h n rsv imm) s, ?_⟩
  by_cases hle : opc.toNat ≤ 0x0C
  · obtain ⟨op, rfl⟩ := exists_opcode_of_le hle
    have hd := decode_mkCommand op n rsv imm
    simp only [hle, forall_const, ← legalN_iff, ← imm_check_iff]
    refine ⟨fun hrsv => ?_, fun hrsv hn => ?_, fun hrsv hn himm => ?_, fun hrsv hn himm => ?_⟩
    · exact issue_error (hd.trans (if_pos hrsv)) s
    · exact issue_error (e := .illegalOperand n) (hd.trans (by simp [hrsv, hn])) s
    · exact issue_error (e := .reservedImm imm) (hd.trans (by simp [hrsv, hn, himm])) s
    · exact ⟨buildInstr op n imm, by rw [opcode_buildInstr], fieldN_buildInstr hn imm, fieldImm_buildInstr himm,
        issue_ok (hd.trans (by simp [hrsv, hn, himm])) s⟩
  · simp [hle]

end Sys2Proof.Machine
end

section
/-! PROOFS. One step: what it runs (spec/30_encoding.md R60, R67), and that it always ends in a next state (R67, R154). -/

namespace Sys2Proof.Machine

/-- Settles O6: a pending word is issued, which executes the decoded command or raises the failed check's error. -/
theorem stepRunsTheDecodedCommand : Obligations.StepRunsTheDecodedCommand := by
  intro s w rest hport
  rw [step_action hport, perform_command]
  exact ⟨fun _ hd => issue_ok hd _, fun _ hd => issue_error hd _⟩

/-- Every command ends in a next state: the two with checks of their own in each branch, the others at once. -/
theorem exec_completes (i : Instr) (s : State) : ∃ t, exec i s = .next t := by
  cases i with
  | append n imm =>
    change ∃ t, execAppend n imm s = .next t
    unfold execAppend
    split_ifs <;> exact ⟨_, rfl⟩
  | applyp =>
    change ∃ t, execApplyp s = .next t
    unfold execApplyp
    split_ifs <;> exact ⟨_, rfl⟩
  | _ => exact ⟨_, rfl⟩

theorem issue_completes (w : Command) (s : State) : ∃ t, issue w s = .next t := by
  cases hd : decode w with
  | ok i => exact issue_ok hd s ▸ exec_completes i s
  | error e => exact ⟨_, issue_error hd s⟩

theorem step_completes (s : State) : ∃ t, step s = .next t := by
  cases hport : s.port with
  | nil => exact ⟨s, by rw [step, takeAction_eq_none.mpr hport]⟩
  | cons a rest =>
    rw [step_action hport]
    cases a with
    | command w => exact issue_completes w _
    | reset c => exact ⟨_, rfl⟩

/-- A run goes on from the state that its first step leaves. -/
theorem run_succ {s t : State} (h : step s = .next t) (k : Nat) : core.run (k + 1) s = core.run k t := by
  have hstep : core.step s = .next t := h
  simp [Host.Core.run, hstep]

/-- Settles O7, by induction on the number of steps. -/
theorem everyStepAndEveryRunCompletes : Obligations.EveryStepAndEveryRunCompletes := by
  refine ⟨step_completes, fun k => ?_⟩
  induction k with
  | zero => exact fun s => ⟨s, rfl⟩
  | succ k ih =>
    intro s
    obtain ⟨t, ht⟩ := step_completes s
    rw [run_succ ht]
    exact ih t

end Sys2Proof.Machine
end

section
/-! PROOFS. The expansions of the pseudo-instructions, executed (spec/30_encoding.md R69). -/

namespace Sys2Proof.Machine

theorem execAll_cons {i : Instr} {s t : State} (h : exec i s = .next t) (is : List Instr) :
    execAll (i :: is) s = execAll is t := by
  simp only [execAll, h]

/-! ### APPENDS -/

/-- A packed word's value: its bytes are the digits to base 256, the first the least significant (R43). -/
theorem packWord_toNat (b0 b1 b2 b3 : Byte) :
    (packWord b0 b1 b2 b3).toNat = Nat.ofDigits 256 [b0.toNat, b1.toNat, b2.toNat, b3.toNat] := by
  simp only [packWord, BitVec.toNat_append, Nat.ofDigits_cons, Nat.ofDigits_nil]
  have := b0.isLt; have := b1.isLt; have := b2.isLt
  rw [← Nat.shiftLeft_add_eq_or_of_lt (by omega), ← Nat.shiftLeft_add_eq_or_of_lt (by omega),
    ← Nat.shiftLeft_add_eq_or_of_lt (by omega)]
  simp only [Nat.shiftLeft_eq]
  omega

/-- An APPEND with legal operands extends the accumulator by its data bytes (R82). -/
theorem exec_append_legal {n : Byte} {imm : Word} (hn : n.toNat ≤ 4) (himm : imm.toNat < 2 ^ (8 * n.toNat)) (s : State) :
    exec (.append n imm) s = .next ((s.setAcc (crcAppend s.acc (appendBytes n imm))).setErr .ok) := by
  have hlegal : legalN .append n = true := decide_eq_true hn
  change execAppend n imm s = _
  rw [execAppend, if_neg (by simp [hlegal]), if_neg (not_not.mpr ((append_imm_check n imm).mpr himm))]

/-- Each of the four sizes of group is legal and carries its own bytes (R69). -/
theorem exec_append_group (s : State) (b0 b1 b2 b3 : Byte) :
    exec (.append 4#8 (packWord b0 b1 b2 b3)) s = .next ((s.setAcc (crcAppend s.acc [b0, b1, b2, b3])).setErr .ok) ∧
    exec (.append 3#8 (packWord b0 b1 b2 0#8)) s = .next ((s.setAcc (crcAppend s.acc [b0, b1, b2])).setErr .ok) ∧
    exec (.append 2#8 (packWord b0 b1 0#8 0#8)) s = .next ((s.setAcc (crcAppend s.acc [b0, b1])).setErr .ok) ∧
    exec (.append 1#8 (packWord b0 0#8 0#8 0#8)) s = .next ((s.setAcc (crcAppend s.acc [b0])).setErr .ok) := by
  have := b0.isLt; have := b1.isLt; have := b2.isLt; have := b3.isLt
  refine ⟨?_, ?_, ?_, ?_⟩ <;>
  · rw [exec_append_legal (by decide) (by simp [packWord_toNat, Nat.ofDigits_cons]; omega)]
    simp [appendBytes, List.range_succ]

/-- The groups of a byte sequence, executed one after another, extend the accumulator by the whole sequence. -/
theorem execAll_appendGroups (bs : List Byte) (s : State) :
    execAll (appendGroups bs) s = .next (if bs = [] then s else (s.setAcc (crcAppend s.acc bs)).setErr .ok) := by
  induction bs using appendGroups.induct generalizing s with
  | case1 b0 b1 b2 b3 rest ih =>
    obtain ⟨hfour, -⟩ := exec_append_group s b0 b1 b2 b3
    rw [appendGroups, execAll_cons hfour, ih]
    by_cases hrest : rest = []
    · subst hrest; rfl
    · simp only [hrest, if_false]; rfl
  | case2 b0 b1 b2 =>
    obtain ⟨-, hthree, -⟩ := exec_append_group s b0 b1 b2 0#8
    exact execAll_cons hthree []
  | case3 b0 b1 =>
    obtain ⟨-, -, htwo, -⟩ := exec_append_group s b0 b1 0#8 0#8
    exact execAll_cons htwo []
  | case4 b0 =>
    obtain ⟨-, -, -, hone⟩ := exec_append_group s b0 0#8 0#8 0#8
    exact execAll_cons hone []
  | case5 => rfl

/-- Settles O54: the empty text is one APPEND of no byte, any other its groups. -/
theorem appendsExtendsByTheWholeText : Obligations.AppendsExtendsByTheWholeText := by
  intro text s
  cases text with
  | nil => exact execAll_cons (exec_append_legal (by decide) (by decide) s) []
  | cons b bs => exact (execAll_appendGroups (b :: bs) s).trans (by rw [if_neg (List.cons_ne_nil b bs)]; rfl)

/-! ### ALPHACLR and ALPHAONE -/

/-- An alphabet after its words numbered in `ns` have been written in turn, word n with `f n` (R128). -/
def writeWords (f : Nat → Word) (A : Alphabet) (ns : List Nat) : Alphabet :=
  ns.foldl (fun B n => setAlphaWord B (BitVec.ofNat 3 n) (f n)) A

/-- SETALPHA commands one after another write their words in turn and nothing else but ERR. -/
theorem execAll_setalpha (f : Nat → Word) (ns : List Nat) (s : State) :
    execAll (ns.map fun n => .setalpha (BitVec.ofNat 3 n) (f n)) s =
      .next (if ns = [] then s else (s.setAlpha (writeWords f s.alpha ns)).setErr .ok) := by
  induction ns generalizing s with
  | nil => rfl
  | cons n ns ih =>
    have hfirst : exec (.setalpha (BitVec.ofNat 3 n) (f n)) s =
      .next ((s.setAlpha (setAlphaWord s.alpha (BitVec.ofNat 3 n) (f n))).setErr .ok) := rfl
    rw [List.map_cons, execAll_cons hfirst, ih]
    by_cases hns : ns = []
    · subst hns; rfl
    · simp only [hns, if_false]; rfl

/-- Words 0 to m - 1 written: every bit below 32m is that of the word it lies in, the others are kept. -/
theorem getLsbD_writeWords_range (f : Nat → Word) (A : Alphabet) {m k : Nat} (hm : m ≤ 8) (hk : k < 256) :
    (writeWords f A (List.range m)).getLsbD k = if k / 32 < m then (f (k / 32)).getLsbD (k % 32) else A.getLsbD k := by
  induction m with
  | zero => simp [writeWords]
  | succ m ih =>
    have hword : (BitVec.ofNat 3 m).toNat = m := by simp; omega
    have hlast : writeWords f A (List.range (m + 1)) =
      setAlphaWord (writeWords f A (List.range m)) (BitVec.ofNat 3 m) (f m) := by
      simp [writeWords, List.range_succ]
    rw [hlast, setAlphaWord_bit _ _ _ _ hk, hword, ih (by omega)]
    obtain hlt | heq | hgt := lt_trichotomy (k / 32) m
    · rw [if_neg hlt.ne, if_pos hlt, if_pos (by omega)]
    · rw [if_pos heq, if_pos (by omega), heq]
    · rw [if_neg hgt.ne', if_neg (by omega), if_neg (by omega)]

/-- All eight words written: nothing of the alphabet before is left. -/
theorem getLsbD_writeWords_all (f : Nat → Word) (A : Alphabet) {k : Nat} (hk : k < 256) :
    (writeWords f A (List.range 8)).getLsbD k = (f (k / 32)).getLsbD (k % 32) := by
  rw [getLsbD_writeWords_range f A le_rfl hk, if_pos (by omega)]

theorem writeWords_zero (A : Alphabet) : writeWords (fun _ => 0#32) A (List.range 8) = 0#256 :=
  BitVec.eq_of_getLsbD_eq fun k hk => by rw [getLsbD_writeWords_all _ _ hk, BitVec.getLsbD_zero, BitVec.getLsbD_zero]

/-- The words of ALPHAONE b have one bit set among them, number b mod 32 of word b div 32. -/
theorem getLsbD_alphaOneWord (b : Byte) {k : Nat} :
    (alphaOneWord b (k / 32)).getLsbD (k % 32) = true ↔ k = b.toNat := by
  unfold alphaOneWord
  split_ifs with hword
  · simp
    omega
  · simp
    omega

/-- Settles O55: both write all eight words, ALPHACLR with no bit set and ALPHAONE with the bit of its operand. -/
theorem alphaPseudosSetTheWholeAlphabet : Obligations.AlphaPseudosSetTheWholeAlphabet := by
  constructor
  · intro s
    refine (execAll_setalpha (fun _ => 0#32) (List.range 8) s).trans ?_
    rw [if_neg (by decide), writeWords_zero]
    rfl
  · intro b s
    refine ⟨_, execAll_setalpha (alphaOneWord b) (List.range 8) s, fun b' => ?_, rfl⟩
    change (writeWords (alphaOneWord b) s.alpha (List.range 8)).getLsbD b'.toNat = true ↔ _
    rw [getLsbD_writeWords_all _ _ b'.isLt, getLsbD_alphaOneWord, BitVec.toNat_inj]

end Sys2Proof.Machine
end

section
/-! PROOFS. The assembler's words by operand form, and the source lines of the mnemonics (spec/30_encoding.md R68). -/

namespace Sys2Proof.Machine

/-! ### The word of each operand form -/

/-- A word of an opcode, two numbers and RSV 0 is the word by its fields. -/
theorem mkCommand_eq_fieldsWord (op : Opcode) (n imm : Nat) :
    mkCommand op.value (BitVec.ofNat 8 n) 0#16 (BitVec.ofNat 32 imm) = fieldsWord op.value.toNat n imm := by
  rw [fieldsWord, BitVec.ofNat_toNat, BitVec.setWidth_eq]
  rfl

/-- The word of a command by its fields (R61, R63). -/
theorem encode_eq_fieldsWord (i : Instr) :
    encode i = fieldsWord i.opcode.value.toNat i.fieldN.toNat i.fieldImm.toNat := by
  rw [← mkCommand_eq_fieldsWord]
  simp [encode]

section Forms
variable {op : Opcode}

theorem assembleOp_plain (h : asmForm op = .plain) : assembleOp op [] = .ok (fieldsWord op.value.toNat 0 0) := by
  simp only [← mkCommand_eq_fieldsWord, assembleOp, h]

theorem assembleOp_imm (h : asmForm op = .imm) (v : Nat) :
    assembleOp op [v] = if v < 2 ^ 32 then .ok (fieldsWord op.value.toNat 0 v) else .error .doesNotFit := by
  simp only [← mkCommand_eq_fieldsWord, assembleOp, h, fit]
  split_ifs <;> rfl

theorem assembleOp_n (h : asmForm op = .n) (k : Nat) :
    assembleOp op [k] = if k < 2 ^ 8 then .ok (fieldsWord op.value.toNat k 0) else .error .doesNotFit := by
  simp only [← mkCommand_eq_fieldsWord, assembleOp, h, fit]
  split_ifs <;> rfl

theorem assembleOp_nImm (h : asmForm op = .nImm) (k v : Nat) : assembleOp op [k, v] =
    if k < 2 ^ 8 ∧ v < 2 ^ 32 then .ok (fieldsWord op.value.toNat k v) else .error .doesNotFit := by
  simp only [← mkCommand_eq_fieldsWord, assembleOp, h, fit]
  by_cases hk : k < 2 ^ 8 <;> by_cases hv : v < 2 ^ 32 <;>
    simp only [hk, hv, and_self, and_true, if_true, if_false] <;> rfl

end Forms

/-- Settles O56: each mnemonic by its operand form, and a command by its fields. -/
theorem assemblerEmitsTheEncodedWord : Obligations.AssemblerEmitsTheEncodedWord :=
  ⟨assembleOp_plain rfl, assembleOp_plain rfl, assembleOp_plain rfl, assembleOp_plain rfl, assembleOp_plain rfl,
    assembleOp_imm rfl, assembleOp_imm rfl, assembleOp_imm rfl, assembleOp_n rfl, assembleOp_n rfl, assembleOp_n rfl,
    assembleOp_nImm rfl, assembleOp_nImm rfl, encode_eq_fieldsWord⟩

/-! ### What a line means, once it is cut into its name and the text after it -/

/-- What a line gives by its first word and the text after it: `assembleLine` without its reader (`assembleLine_of_text`
ties the two). -/
def assembleNamed (name rest : List Char) : Except AsmError (List Command) :=
  if name = rawDirective then do
    match ← parseOperands rest with
    | [w] => return [← fit 64 w]
    | _ => throw .wrongOperands
  else match opcodeNamed name with
    | some op => do return [← assembleOp op (← parseOperands rest)]
    | none =>
      match pseudoNamed name rest with
      | some p => do return (← p).expand.map encode
      | none => .error .unknownMnemonic

/-- A line whose text is a name, and after it nothing or white space first, is read as that name and that rest. -/
theorem assembleLine_of_text {line name rest : List Char} (htext : trim (dropComment false line) = name ++ rest)
    (hne : name ≠ []) (hname : ∀ c ∈ name, isBlank c = false) (hrest : ∀ c ∈ rest.head?, isBlank c = true) :
    assembleLine line = assembleNamed name rest := by
  have hword : ∀ c ∈ name, (!isBlank c) = true := by simpa using hname
  have hcut : rest.takeWhile (fun c => !isBlank c) = [] ∧ rest.dropWhile (fun c => !isBlank c) = rest := by
    cases rest with
    | nil => exact ⟨rfl, rfl⟩
    | cons c cs => simp [hrest c rfl]
  obtain ⟨htake, hdrop⟩ := hcut
  simp only [assembleLine, htext, List.takeWhile_append_of_pos hword, List.dropWhile_append_of_pos hword, htake, hdrop,
    List.append_nil, List.append_eq_nil_iff, hne, false_and, if_false]
  rfl

/-- A word that can begin a line: no character of it is white space or starts a comment or a string. -/
abbrev NameChars (name : List Char) : Prop := name ≠ [] ∧ ∀ c ∈ name, isBlank c = false ∧ c ≠ ';' ∧ c ≠ '"'

section Lines
variable {name tail : List Char} (hname : NameChars name) (ht : LineEnd tail)
include hname ht

/-- A line of a name alone. -/
theorem assembleLine_bare : assembleLine (name ++ tail) = assembleNamed name [] := by
  obtain ⟨hne, hchars⟩ := hname
  refine assembleLine_of_text ?_ hne (fun c hc => (hchars c hc).1) (by simp)
  rw [dropComment_append _ fun c hc => (hchars c hc).2, trim_dropComment_lineEnd ht, List.append_nil]
  exact trim_eq_self (fun c hc => (hchars c (List.mem_of_mem_head? hc)).1)
    fun c hc => (hchars c (List.mem_of_mem_getLast? hc)).1

/-- A line of a name and one number. -/
theorem assembleLine_one {cs : List Char} {v : Nat} (h : Numeral cs v) :
    assembleLine (name ++ ' ' :: (cs ++ tail)) = assembleNamed name (' ' :: cs) := by
  obtain ⟨hne, hchars⟩ := hname
  obtain ⟨hne', hcs, hlast⟩ := numeral_body h
  exact (assembleLine_name ht hne hchars hne' hcs hlast).trans rfl

/-- A line of a name and two numbers. -/
theorem assembleLine_two {cs ds : List Char} {k v : Nat} (h : Numeral cs k) (h' : Numeral ds v) :
    assembleLine (name ++ ' ' :: (cs ++ ',' :: ' ' :: (ds ++ tail))) =
      assembleNamed name (' ' :: (cs ++ ',' :: ' ' :: ds)) := by
  obtain ⟨hne, hchars⟩ := hname
  obtain ⟨hne', hcs, hlast⟩ := numeral_pair_body h h'
  have hline := assembleLine_name ht hne hchars hne' hcs hlast
  simp only [List.append_assoc, List.cons_append] at hline
  exact hline.trans rfl

end Lines

/-! ### The meaning of a name -/

theorem assembleNamed_raw {rest : List Char} {w : Nat} (h : parseOperands rest = .ok [w]) :
    assembleNamed rawDirective rest = if w < 2 ^ 64 then .ok [BitVec.ofNat 64 w] else .error .doesNotFit := by
  rw [assembleNamed, if_pos rfl, h]
  change (do return [← fit 64 w]) = _
  rw [fit]
  split_ifs <;> rfl

/-- A mnemonic's line is its one word, or that word's error. -/
theorem assembleNamed_opcode {name rest : List Char} {op : Opcode} {args : List Nat} (hop : opcodeNamed name = some op)
    (h : parseOperands rest = .ok args) : assembleNamed name rest = (assembleOp op args).map fun w => [w] := by
  have hraw : name ≠ rawDirective := by
    rintro rfl
    cases hop
  rw [assembleNamed, if_neg hraw, hop, h]
  change (do return [← assembleOp op args]) = _
  cases assembleOp op args <;> rfl

/-- Wrapping the one word of a line changes nothing about whether its operands fit. -/
theorem map_word_ite (p : Prop) [Decidable p] (w : Command) :
    (if p then .ok w else .error .doesNotFit : Except AsmError Command).map (fun w => [w]) =
      if p then .ok [w] else .error .doesNotFit := by
  split_ifs <;> rfl

/-- The table entry `m`, a mnemonic with its opcode's number, can begin a line and names an opcode with that number and
of that operand form. -/
abbrev IsMnemonic (form : AsmForm) (m : String × Nat) : Prop :=
  NameChars m.1.toList ∧ (opcodeNamed m.1.toList).map (fun op => (asmForm op, op.value.toNat)) = some (form, m.2)

theorem plainMnemonics_isMnemonic : ∀ m ∈ plainMnemonics, IsMnemonic .plain m := by
  simp [plainMnemonics, IsMnemonic, NameChars, isBlank, opcodeNamed, asmForm, Opcode.value]

theorem immMnemonics_isMnemonic : ∀ m ∈ immMnemonics, IsMnemonic .imm m := by
  simp [immMnemonics, IsMnemonic, NameChars, isBlank, opcodeNamed, asmForm, Opcode.value]

theorem nMnemonics_isMnemonic : ∀ m ∈ nMnemonics, IsMnemonic .n m := by
  simp [nMnemonics, IsMnemonic, NameChars, isBlank, opcodeNamed, asmForm, Opcode.value]

theorem nImmMnemonics_isMnemonic : ∀ m ∈ nImmMnemonics, IsMnemonic .nImm m := by
  simp [nImmMnemonics, IsMnemonic, NameChars, isBlank, opcodeNamed, asmForm, Opcode.value]

/-- What a mnemonic's name and operands give, by its operand form and its opcode's number. -/
theorem assembleNamed_mnemonic {form : AsmForm} {m : String × Nat} (hm : IsMnemonic form m) :
    ∃ op, asmForm op = form ∧ op.value.toNat = m.2 ∧ ∀ {rest : List Char} {args : List Nat},
      parseOperands rest = .ok args → assembleNamed m.1.toList rest = (assembleOp op args).map fun w => [w] := by
  obtain ⟨op, hop, hfields⟩ := Option.map_eq_some_iff.mp hm.2
  obtain ⟨hform, hvalue⟩ := Prod.mk.inj hfields
  exact ⟨op, hform, hvalue, assembleNamed_opcode hop⟩

/-! ### The lines, one lemma per operand form -/

section MnemonicLines
variable {m : String × Nat} {tail : List Char} (ht : LineEnd tail)
include ht

/-- A line with nothing but its end gives no word (log 7). -/
theorem assembleLine_empty : assembleLine tail = .ok [] :=
  (assembleLine_lineEnd (cs := []) (by simp) ht).trans rfl

theorem assembleLine_plain (hm : IsMnemonic .plain m) :
    assembleLine (m.1.toList ++ tail) = .ok [fieldsWord m.2 0 0] := by
  obtain ⟨op, hform, hvalue, hnamed⟩ := assembleNamed_mnemonic hm
  rw [assembleLine_bare hm.1 ht, hnamed rfl, assembleOp_plain hform, hvalue]
  rfl

theorem assembleLine_imm (hm : IsMnemonic .imm m) {cs : List Char} {v : Nat} (h : Numeral cs v) :
    assembleLine (m.1.toList ++ ' ' :: (cs ++ tail)) =
      if v < 2 ^ 32 then .ok [fieldsWord m.2 0 v] else .error .doesNotFit := by
  obtain ⟨op, hform, hvalue, hnamed⟩ := assembleNamed_mnemonic hm
  rw [assembleLine_one hm.1 ht h, hnamed (parseOperands_one h), assembleOp_imm hform, hvalue, map_word_ite]

theorem assembleLine_n (hm : IsMnemonic .n m) {cs : List Char} {k : Nat} (h : Numeral cs k) :
    assembleLine (m.1.toList ++ ' ' :: (cs ++ tail)) =
      if k < 2 ^ 8 then .ok [fieldsWord m.2 k 0] else .error .doesNotFit := by
  obtain ⟨op, hform, hvalue, hnamed⟩ := assembleNamed_mnemonic hm
  rw [assembleLine_one hm.1 ht h, hnamed (parseOperands_one h), assembleOp_n hform, hvalue, map_word_ite]

theorem assembleLine_nImm (hm : IsMnemonic .nImm m) {cs ds : List Char} {k v : Nat} (h : Numeral cs k)
    (h' : Numeral ds v) : assembleLine (m.1.toList ++ ' ' :: (cs ++ ',' :: ' ' :: (ds ++ tail))) =
      if k < 2 ^ 8 ∧ v < 2 ^ 32 then .ok [fieldsWord m.2 k v] else .error .doesNotFit := by
  obtain ⟨op, hform, hvalue, hnamed⟩ := assembleNamed_mnemonic hm
  rw [assembleLine_two hm.1 ht h h', hnamed (parseOperands_two h h'), assembleOp_nImm hform, hvalue, map_word_ite]

/-- A line of the raw-word directive. -/
theorem assembleLine_raw {cs : List Char} {v : Nat} (h : Numeral cs v) :
    assembleLine (".word64".toList ++ ' ' :: (cs ++ tail)) =
      if v < 2 ^ 64 then .ok [BitVec.ofNat 64 v] else .error .doesNotFit := by
  have hname : NameChars ".word64".toList := by simp [NameChars, isBlank]
  rw [assembleLine_one hname ht h]
  exact assembleNamed_raw (parseOperands_one h)

end MnemonicLines

/-! ### Source texts -/

/-- A text without a line feed is one line. -/
theorem assemble_line {line : List Char} (h : '\n' ∉ line) : assemble line = assembleLine line := by
  rw [assemble, cut_of_not_mem h]
  cases hline : assembleLine line with
  | error e => simp [hline]
  | ok ws => simp [hline]

/-- The words of a first line come before those of the lines after it. -/
theorem assemble_line_append {line rest : List Char} {ws ws' : List Command} (h : '\n' ∉ line)
    (hline : assembleLine line = .ok ws) (hrest : assemble rest = .ok ws') :
    assemble (line ++ '\n' :: rest) = .ok (ws ++ ws') := by
  unfold assemble at hrest ⊢
  rw [cut_append_sep rest h, List.mapM_cons, hline]
  cases htail : (cut '\n' rest).mapM assembleLine with
  | error e => rw [htail] at hrest; cases hrest
  | ok wss =>
    rw [htail] at hrest
    obtain rfl := Except.ok.inj hrest
    rfl

/-- Settles O57: the mnemonics by their operand forms, the directive, and the lines of a text in their order. -/
theorem sourceLinesAssembleToTheirWords : Obligations.SourceLinesAssembleToTheirWords :=
  ⟨fun _ ht => ⟨assembleLine_empty ht,
      fun m hm => assembleLine_plain ht (plainMnemonics_isMnemonic m hm),
      fun m hm _ _ h => assembleLine_imm ht (immMnemonics_isMnemonic m hm) h,
      fun m hm _ _ h => assembleLine_n ht (nMnemonics_isMnemonic m hm) h,
      fun m hm _ _ _ _ h h' => assembleLine_nImm ht (nImmMnemonics_isMnemonic m hm) h h',
      fun _ _ h => assembleLine_raw ht h⟩,
    fun _ => assemble_line, fun _ _ _ _ => assemble_line_append⟩

end Sys2Proof.Machine
end

section
/-! PROOFS. The source lines of the pseudo-instructions (spec/30_encoding.md R69). -/

namespace Sys2Proof.Machine

/-! ### Expansions as words -/

theorem encode_append (n : Byte) (imm : Word) : encode (.append n imm) = fieldsWord 0x02 n.toNat imm.toNat :=
  encode_eq_fieldsWord _

theorem encode_append_packWord (n b0 b1 b2 b3 : Byte) : encode (.append n (packWord b0 b1 b2 b3)) =
    fieldsWord 0x02 n.toNat (Nat.ofDigits 256 [b0.toNat, b1.toNat, b2.toNat, b3.toNat]) := by
  rw [encode_append, packWord_toNat]

/-- The words of a byte sequence that is cut into groups of four, in the terms of `appendsWords`. -/
def groupWords (bytes : List Nat) : List Command :=
  (List.range ((bytes.length + 3) / 4)).map fun k =>
    fieldsWord 0x02 (min 4 (bytes.length - 4 * k)) (Nat.ofDigits 256 ((bytes.drop (4 * k)).take 4))

/-- The first four bytes make one word, and the others are grouped as they would be alone. -/
theorem groupWords_cons_four (a b c d : Nat) (rest : List Nat) :
    groupWords (a :: b :: c :: d :: rest) = fieldsWord 0x02 4 (Nat.ofDigits 256 [a, b, c, d]) :: groupWords rest := by
  have hcount : (rest.length + 4 + 3) / 4 = (rest.length + 3) / 4 + 1 := by omega
  have hlen (k : Nat) : rest.length + 4 - 4 * (k + 1) = rest.length - 4 * k := by omega
  have hdrop (k : Nat) : (a :: b :: c :: d :: rest).drop (4 * (k + 1)) = rest.drop (4 * k) := by
    rw [Nat.mul_succ]
    rfl
  simp only [groupWords, List.length_cons, Nat.add_assoc, Nat.reduceAdd]
  simp [List.range_succ_eq_map, Function.comp_def, hlen, hdrop, hcount]

theorem map_encode_appendGroups (bs : List Byte) :
    (appendGroups bs).map encode = groupWords (bs.map BitVec.toNat) := by
  induction bs using appendGroups.induct with
  | case1 b0 b1 b2 b3 rest ih =>
    simp only [appendGroups, List.map_cons, groupWords_cons_four, ih, encode_append_packWord]
    rfl
  | case2 | case3 | case4 => simp [appendGroups, encode_append_packWord, groupWords, Nat.ofDigits_cons]
  | case5 => rfl

/-- The words of APPENDS (R69). -/
theorem map_encode_appends (bs : List Byte) :
    (Pseudo.appends bs).expand.map encode = appendsWords (bs.map BitVec.toNat) := by
  cases bs with
  | nil => exact congrArg (fun w => [w]) (encode_append 0#8 0#32)
  | cons b bs => exact map_encode_appendGroups (b :: bs)

/-- The words of ALPHACLR and ALPHAONE: SETALPHA for each of the eight alphabet words. -/
theorem map_encode_setalpha (f : Nat → Word) :
    ((List.range 8).map fun n => Instr.setalpha (BitVec.ofNat 3 n) (f n)).map encode =
      (List.range 8).map fun n => fieldsWord 0x09 n (f n).toNat := by
  rw [List.map_map]
  refine List.map_congr_left fun n hn => ?_
  have hword : ((BitVec.ofNat 3 n).setWidth 8).toNat = n := by
    have := List.mem_range.mp hn
    simp
    omega
  calc encode (.setalpha (BitVec.ofNat 3 n) (f n))
      = fieldsWord 0x09 ((BitVec.ofNat 3 n).setWidth 8).toNat (f n).toNat := encode_eq_fieldsWord _
    _ = fieldsWord 0x09 n (f n).toNat := by rw [hword]

theorem alphaOneWord_toNat (b : Byte) (n : Nat) :
    (alphaOneWord b n).toNat = if n = b.toNat / 32 then 2 ^ (b.toNat % 32) else 0 := by
  unfold alphaOneWord
  split_ifs
  · have : 2 ^ (b.toNat % 32) < 2 ^ 32 := Nat.pow_lt_pow_right (by decide) (Nat.mod_lt _ (by decide))
    simpa [Nat.shiftLeft_eq] using this
  · rfl

/-! ### The lines -/

/-- A pseudo-instruction's line is the words of its expansion, or its operand's error. -/
theorem assembleNamed_pseudo {name rest : List Char} {p : Except AsmError Pseudo} (hraw : name ≠ rawDirective)
    (hop : opcodeNamed name = none) (hp : pseudoNamed name rest = some p) :
    assembleNamed name rest = p.map fun q => q.expand.map encode := by
  rw [assembleNamed, if_neg hraw, hop]
  simp only [hp]
  cases p <;> rfl

/-- A name that can begin a line and is neither a mnemonic nor the directive. -/
abbrev PseudoName (name : List Char) : Prop := NameChars name ∧ name ≠ rawDirective ∧ opcodeNamed name = none

/-- The pseudo-instructions' names can begin a line and are no mnemonics. -/
theorem pseudoName_names : ∀ name ∈ ["SEED", "APPENDB", "APPENDW", "APPENDS", "ALPHACLR", "ALPHAONE"],
    PseudoName name.toList := by
  simp [PseudoName, NameChars, isBlank, opcodeNamed, rawDirective]

section PseudoLines
variable {name tail : List Char} (hname : PseudoName name) (ht : LineEnd tail)
include hname ht

/-- A line of a pseudo-instruction without an operand. -/
theorem assembleLine_pseudo_bare {q : Pseudo} (hp : pseudoNamed name [] = some (.ok q)) :
    assembleLine (name ++ tail) = .ok (q.expand.map encode) := by
  obtain ⟨hchars, hraw, hop⟩ := hname
  rw [assembleLine_bare hchars ht, assembleNamed_pseudo hraw hop hp]
  rfl

/-- A line of a pseudo-instruction with one number, which goes to a field of `w` bits. -/
theorem assembleLine_pseudo_one {w : Nat} {q : BitVec w → Pseudo} {cs : List Char} {v : Nat} {words : List Command}
    (h : Numeral cs v) (hp : pseudoNamed name (' ' :: cs) = some ((fit w v).map q))
    (hwords : v < 2 ^ w → (q (BitVec.ofNat w v)).expand.map encode = words) :
    assembleLine (name ++ ' ' :: (cs ++ tail)) = if v < 2 ^ w then .ok words else .error .doesNotFit := by
  obtain ⟨hchars, hraw, hop⟩ := hname
  rw [assembleLine_one hchars ht h, assembleNamed_pseudo hraw hop hp, fit]
  split_ifs with hv
  · exact congrArg Except.ok (hwords hv)
  · rfl

end PseudoLines

/-- No operand text is the operand of each pseudo-instruction that takes none. -/
theorem pseudoNamed_bare : pseudoNamed "SEED".toList [] = some (.ok .seed) ∧
    pseudoNamed "ALPHACLR".toList [] = some (.ok .alphaclr) := ⟨rfl, rfl⟩

/-- An operand list of one number is the operand of each pseudo-instruction that takes one. -/
theorem pseudoNamed_one {rest : List Char} {v : Nat} (h : parseOperands rest = .ok [v]) :
    pseudoNamed "APPENDB".toList rest = some ((fit 8 v).map .appendb) ∧
    pseudoNamed "APPENDW".toList rest = some ((fit 32 v).map .appendw) ∧
    pseudoNamed "ALPHAONE".toList rest = some ((fit 8 v).map .alphaone) := by
  refine ⟨?_, ?_, ?_⟩ <;> simp [pseudoNamed, h] <;> rfl

/-! ### The quoted text of APPENDS -/

theorem dropComment_quotedText {text tail : List Char} (h : '"' ∉ text) :
    dropComment false ('"' :: (text ++ '"' :: tail)) = '"' :: (text ++ '"' :: dropComment false tail) := by
  simp [dropComment, dropComment_quoted _ h]

theorem quotedText_getLast (text : List Char) : ∀ c ∈ ('"' :: (text ++ ['"'])).getLast?, isBlank c = false := by
  rw [← List.cons_append, List.getLast?_concat]
  simp [isBlank]

/-- A line of a name and a quoted text keeps the text whole, whatever characters but the quotation mark it holds. -/
theorem assembleLine_quoted {name text tail : List Char} (hname : NameChars name) (ht : LineEnd tail) (h : '"' ∉ text) :
    assembleLine (name ++ ' ' :: '"' :: (text ++ '"' :: tail)) =
      assembleNamed name (' ' :: '"' :: (text ++ ['"'])) := by
  obtain ⟨hne, hchars⟩ := hname
  refine assembleLine_of_text ?_ hne (fun c hc => (hchars c hc).1) (by simp [isBlank])
  have hplain : ∀ c ∈ name ++ [' '], c ≠ ';' ∧ c ≠ '"' := by
    intro c hc
    obtain hc | hc := List.mem_append.mp hc
    · exact (hchars c hc).2
    · obtain rfl := List.mem_singleton.mp hc
      decide
  calc trim (dropComment false (name ++ ' ' :: '"' :: (text ++ '"' :: tail)))
      = trim (dropComment false ((name ++ [' ']) ++ '"' :: (text ++ '"' :: tail))) := by simp
    _ = trim ((name ++ ' ' :: '"' :: (text ++ ['"'])) ++ dropComment false tail) := by
      rw [dropComment_append _ hplain, dropComment_quotedText h]
      simp
    _ = trim (name ++ ' ' :: '"' :: (text ++ ['"'])) := trim_dropComment_lineEnd ht
    _ = name ++ ' ' :: '"' :: (text ++ ['"']) :=
      trim_name hne (fun c hc => (hchars c hc).1) (List.cons_ne_nil _ _) (quotedText_getLast text)

/-- Each ASCII character is its byte (R69). -/
theorem mapM_ascii {text : List Char} (h : ∀ c ∈ text, c.toNat < 128) :
    (text.mapM fun c => if c.toNat < 128 then .ok (BitVec.ofNat 8 c.toNat) else .error .notAscii :
      Except AsmError (List Byte)) = .ok (text.map fun c => BitVec.ofNat 8 c.toNat) := by
  induction text with
  | nil => rfl
  | cons c cs ih =>
    rw [List.mapM_cons, ih fun d hd => h d (List.mem_cons_of_mem c hd), if_pos (h c List.mem_cons_self)]
    rfl

theorem parseText_quoted {text : List Char} (h : '"' ∉ text) (hascii : ∀ c ∈ text, c.toNat < 128) :
    parseText (' ' :: '"' :: (text ++ ['"'])) = .ok (text.map fun c => BitVec.ofNat 8 c.toNat) := by
  have htrim : trim (' ' :: '"' :: (text ++ ['"'])) = '"' :: (text ++ ['"']) := by
    rw [trim_cons_space]
    exact trim_eq_self (by simp [isBlank]) (quotedText_getLast text)
  have hbody : (text ++ ['"']).reverse = '"' :: text.reverse := by simp
  rw [parseText, htrim]
  simp only [hbody]
  rw [if_neg (by simpa using h), List.reverse_reverse]
  exact mapM_ascii hascii

/-! ### Every pseudo-instruction -/

section OneLineEach
variable {tail cs : List Char} {v : Nat} (ht : LineEnd tail)
include ht

theorem assembleLine_seed : assembleLine ("SEED".toList ++ tail) = .ok [fieldsWord 0x01 0 0xFFFFFFFF] := by
  obtain ⟨hp, -⟩ := pseudoNamed_bare
  rw [assembleLine_pseudo_bare (pseudoName_names _ (by simp)) ht hp]
  rfl

theorem assembleLine_alphaclr :
    assembleLine ("ALPHACLR".toList ++ tail) = .ok ((List.range 8).map fun n => fieldsWord 0x09 n 0) := by
  obtain ⟨-, hp⟩ := pseudoNamed_bare
  rw [assembleLine_pseudo_bare (pseudoName_names _ (by simp)) ht hp]
  exact congrArg Except.ok (map_encode_setalpha fun _ => 0#32)

theorem assembleLine_appendb (h : Numeral cs v) : assembleLine ("APPENDB".toList ++ ' ' :: (cs ++ tail)) =
    if v < 2 ^ 8 then .ok [fieldsWord 0x02 1 v] else .error .doesNotFit := by
  obtain ⟨hp, -, -⟩ := pseudoNamed_one (parseOperands_one h)
  refine assembleLine_pseudo_one (pseudoName_names _ (by simp)) ht h hp fun hv => ?_
  have himm : ((BitVec.ofNat 8 v).setWidth 32).toNat = v := by
    simp
    omega
  change [encode (.append 1#8 ((BitVec.ofNat 8 v).setWidth 32))] = _
  rw [encode_append, himm]
  rfl

theorem assembleLine_appendw (h : Numeral cs v) : assembleLine ("APPENDW".toList ++ ' ' :: (cs ++ tail)) =
    if v < 2 ^ 32 then .ok [fieldsWord 0x02 4 v] else .error .doesNotFit := by
  obtain ⟨-, hp, -⟩ := pseudoNamed_one (parseOperands_one h)
  refine assembleLine_pseudo_one (pseudoName_names _ (by simp)) ht h hp fun hv => ?_
  have himm : (BitVec.ofNat 32 v).toNat = v := Nat.mod_eq_of_lt hv
  change [encode (.append 4#8 (BitVec.ofNat 32 v))] = _
  rw [encode_append, himm]
  rfl

theorem assembleLine_alphaone (h : Numeral cs v) : assembleLine ("ALPHAONE".toList ++ ' ' :: (cs ++ tail)) =
    if v < 2 ^ 8 then
      .ok ((List.range 8).map fun n => fieldsWord 0x09 n (if n = v / 32 then 2 ^ (v % 32) else 0))
    else .error .doesNotFit := by
  obtain ⟨-, -, hp⟩ := pseudoNamed_one (parseOperands_one h)
  refine assembleLine_pseudo_one (pseudoName_names _ (by simp)) ht h hp fun hv => ?_
  refine (map_encode_setalpha (alphaOneWord (BitVec.ofNat 8 v))).trans ?_
  simp only [alphaOneWord_toNat, BitVec.toNat_ofNat, Nat.mod_eq_of_lt hv]

theorem assembleLine_appends {text : List Char} (h : '"' ∉ text) (hascii : ∀ c ∈ text, c.toNat < 128) :
    assembleLine ("APPENDS".toList ++ ' ' :: '"' :: (text ++ '"' :: tail)) =
      .ok (appendsWords (text.map Char.toNat)) := by
  obtain ⟨hchars, hraw, hop⟩ : PseudoName "APPENDS".toList := pseudoName_names _ (by simp)
  have hp : pseudoNamed "APPENDS".toList (' ' :: '"' :: (text ++ ['"'])) =
      some (.ok (.appends (text.map fun c => BitVec.ofNat 8 c.toNat))) := by
    simp [pseudoNamed, parseText_quoted h hascii]
  have hbytes : (text.map fun c => BitVec.ofNat 8 c.toNat).map BitVec.toNat = text.map Char.toNat := by
    rw [List.map_map]
    exact List.map_congr_left fun c hc => Nat.mod_eq_of_lt (lt_trans (hascii c hc) (by decide))
  rw [assembleLine_quoted hchars ht h, assembleNamed_pseudo hraw hop hp, ← hbytes, ← map_encode_appends]
  rfl

end OneLineEach

/-- Settles O58, one lemma per pseudo-instruction. -/
theorem pseudoLinesAssembleToTheirExpansions : Obligations.PseudoLinesAssembleToTheirExpansions :=
  fun _ ht => ⟨assembleLine_seed ht, fun _ _ => assembleLine_appendb ht, fun _ _ => assembleLine_appendw ht,
    fun _ h => assembleLine_appends ht (fun hq => let ⟨_, hne, _⟩ := h _ hq; hne rfl) fun c hc => (h c hc).1,
    assembleLine_alphaclr ht, fun _ _ => assembleLine_alphaone ht⟩

end Sys2Proof.Machine
end

section
/-! PROOFS. What every word of one opcode does, and the CRC engine commands (spec/40_crc_engine.md R81 to R84). -/

namespace Sys2Proof.Machine

/-! ### Every word of one opcode -/

theorem opcode_value_inj {op op' : Opcode} (h : op.value = op'.value) : op = op' := by
  simpa using congrArg opcodeOf h

theorem opcode_value_le (op : Opcode) : op.value.toNat ≤ 0x0C := by cases op <;> decide

/-- The rule of an opcode from its command's effect: the words that a check rejects are the decoder's business, so what is
left to show is what the command does with operands that pass (R64). -/
theorem commandRule_of_exec {op : Opcode} {nOk : Byte → Prop} {immOk : Byte → Word → Prop}
    {post : Byte → Word → State → State → Prop} (hn : ∀ n, nOk n ↔ NLegal op.value.toNat n.toNat)
    (himm : ∀ n imm, immOk n imm ↔ ImmLegal op.value.toNat n.toNat imm.toNat)
    (hexec : ∀ n imm s, nOk n → immOk n imm → ∃ t, exec (buildInstr op n imm) s = .next t ∧ post n imm s t) :
    CommandRule op.value nOk immOk post := by
  intro n rsv imm s
  obtain ⟨-, badRsv, badN, badImm, legal⟩ := decodeChecksDecideInOrder op.value n rsv imm s
  have hle := opcode_value_le op
  simp only [← hn, ← himm] at badN badImm legal
  refine ⟨badRsv hle, badN hle, badImm hle, fun hrsv hN hImm => ?_⟩
  obtain ⟨i, hopcode, rfl, rfl, hrun⟩ := legal hle hrsv hN hImm
  obtain rfl := opcode_value_inj hopcode
  rw [hrun]
  simpa using hexec i.fieldN i.fieldImm s hN hImm

/-! ### APPEND on operands that no legal word carries (log 8) -/

theorem exec_append_illegal_count {n : Byte} (hn : 4 < n.toNat) (imm : Word) (s : State) :
    exec (.append n imm) s = .next (raise .illegalOperand s) := by
  have hcheck : legalN .append n = false := decide_eq_false (Nat.not_le.mpr hn)
  exact if_pos hcheck

theorem exec_append_illegal_data {n : Byte} {imm : Word} (hn : n.toNat ≤ 4) (himm : 2 ^ (8 * n.toNat) ≤ imm.toNat)
    (s : State) : exec (.append n imm) s = .next (raise .reservedNonzero s) := by
  have hcount : ¬ legalN .append n = false := ne_false_of_eq_true (decide_eq_true hn)
  have hdata : imm &&& ~~~ immUsedMask .append n ≠ 0#32 := fun h =>
    absurd ((append_imm_check n imm).mp h) (Nat.not_lt.mpr himm)
  exact (if_neg hcount).trans (if_pos hdata)

/-- Settles O27: a word that passes the decoder's bounds on N and IMM meets those of `exec_append_legal`, and the terms
beyond either bound end in that check's error. -/
theorem appendExtendsTheAccumulator : Obligations.AppendExtendsTheAccumulator :=
  ⟨commandRule_of_exec (op := .append) (fun _ => Iff.rfl) (fun _ _ => Iff.rfl)
      fun _ _ s hn himm => ⟨_, exec_append_legal hn himm s, rfl⟩,
    fun _ imm s => ⟨fun hn => exec_append_illegal_count hn imm s, fun hn himm => exec_append_illegal_data hn himm s,
      fun hn himm => exec_append_legal hn himm s⟩⟩

/-! ### TABLE -/

/-- The model's repetition is the library's. -/
theorem iterate_eq (f : Word → Word) (n : Nat) (a : Word) : iterate f n a = f^[n] a := by
  induction n generalizing a with
  | zero => rfl
  | succ n ih => exact ih (f a)

/-- A table entry is eight single-bit divisions starting from its index (R23). -/
theorem lut_eq_genStep (n : Byte) : lut n = genStep^[8] (n.setWidth 32) := iterate_eq genStep 8 _

theorem exec_table (n : Byte) (s : State) : exec (.table n) s = .next { s with out := lut n, err := 0#4 } := rfl

/-- Settles O29: every N is legal, and the table is its generation procedure. -/
theorem tableReadsTheGeneratedEntry : Obligations.TableReadsTheGeneratedEntry :=
  ⟨commandRule_of_exec (op := .table) (fun _ => Iff.rfl) (fun _ _ => BitVec.toNat_inj.symm)
      fun n _ s _ _ => ⟨_, exec_table n s, rfl⟩,
    exec_table, lut_eq_genStep, fun _ => rfl, by decide, by decide⟩

/-! ### SET and GETACC -/

theorem exec_set (imm : Word) (s : State) : exec (.set imm) s = .next { s with acc := imm, err := 0#4 } := rfl

/-- Settles O26: SET takes its whole operand and no N. -/
theorem setLoadsTheAccumulator : Obligations.SetLoadsTheAccumulator :=
  ⟨commandRule_of_exec (op := .set) (fun _ => BitVec.toNat_inj.symm) (fun _ _ => Iff.rfl)
      fun _ imm s _ _ => ⟨_, exec_set imm s, rfl⟩,
    exec_set⟩

theorem exec_getacc (s : State) : exec .getacc s = .next { s with out := s.acc, err := 0#4 } := rfl

/-- Settles O28: GETACC has neither operand. -/
theorem getaccReadsTheAccumulator : Obligations.GetaccReadsTheAccumulator :=
  ⟨commandRule_of_exec (op := .getacc) (fun _ => BitVec.toNat_inj.symm) (fun _ _ => BitVec.toNat_inj.symm)
      fun _ _ s _ _ => ⟨_, exec_getacc s, rfl⟩,
    exec_getacc⟩

end Sys2Proof.Machine
end

section
/-! PROOFS. The inverter is correct and the only one that is, and the command SOLVEB (spec/41_binary_forcing.md R100 to
R106). Working from the target backward, what is left of it after each peeled step has to be met in one byte less, from
the top; so the notion that the steps carry is agreement in the upper `k` bytes, and one equivalence per step says both
that the recovered byte is right and that no other is. -/

namespace Sys2Proof.Machine

/-! ### Agreement from the top -/

/-- The two words have the same upper `k` bytes. -/
def AgreeTop (k : Nat) (a x : Word) : Prop := ∀ j < 32, 32 ≤ j + 8 * k → a.getLsbD j = x.getLsbD j

theorem agreeTop_zero (a x : Word) : AgreeTop 0 a x := fun j hj hk => by omega

theorem agreeTop_four {a x : Word} : AgreeTop 4 a x ↔ a = x :=
  ⟨fun h => BitVec.eq_of_getLsbD_eq fun j hj => h j hj (by omega), fun h _ _ _ => h ▸ rfl⟩

/-- A XOR may be moved to the other side. -/
theorem agreeTop_xor_left {k : Nat} {y a x : Word} : AgreeTop k (y ^^^ a) x ↔ AgreeTop k a (x ^^^ y) := by
  have hbit : ∀ p q r : Bool, (p ^^ q) = r ↔ q = (r ^^ p) := by decide
  simp only [AgreeTop, BitVec.getLsbD_xor, hbit]

theorem getLsbD_topByte (y : Word) {j : Nat} (hj : j < 8) : (topByte y).getLsbD j = y.getLsbD (24 + j) := by
  simp [topByte, hj]

theorem topByte_eq_zero_iff {y : Word} : topByte y = 0#8 ↔ ∀ j < 32, 24 ≤ j → y.getLsbD j = false := by
  constructor
  · intro h j hj hj'
    rw [← Nat.add_sub_cancel' hj', ← getLsbD_topByte y (by omega), h, BitVec.getLsbD_zero]
  · intro h
    refine BitVec.eq_of_getLsbD_eq fun j hj => ?_
    rw [getLsbD_topByte y hj, h _ (by omega) (by omega), BitVec.getLsbD_zero]

/-- A word shifted right by a byte meets `y` in its upper bytes exactly when the upper byte of `y` is 0 and the word
itself meets what lies below that byte. -/
theorem agreeTop_shiftRight {k : Nat} (hk : k < 4) {a y : Word} :
    AgreeTop (k + 1) (a >>> 8) y ↔ topByte y = 0#8 ∧ AgreeTop k a (y <<< 8) := by
  have hright : ∀ j, (a >>> 8).getLsbD j = a.getLsbD (8 + j) := BitVec.getLsbD_ushiftRight a 8
  have hleft : ∀ j < 32, 8 ≤ j → (y <<< 8).getLsbD j = y.getLsbD (j - 8) := fun j hj hj' => by
    simp only [BitVec.getLsbD_shiftLeft, hj, Nat.not_lt.mpr hj', decide_true, decide_false, Bool.not_false,
      Bool.true_and]
  rw [topByte_eq_zero_iff]
  constructor
  · intro h
    refine ⟨fun j hj hj' => ?_, fun j hj hj' => ?_⟩
    · rw [← h j hj (by omega), hright, BitVec.getLsbD_of_ge a _ (by omega)]
    · rw [hleft j hj (by omega), ← h (j - 8) (by omega) (by omega), hright, Nat.add_sub_cancel' (by omega)]
  · rintro ⟨htop, hrest⟩ j hj hj'
    rw [hright]
    by_cases htopBit : 24 ≤ j
    · rw [htop j hj htopBit, BitVec.getLsbD_of_ge a _ (by omega)]
    · rw [hrest (8 + j) (by omega) (by omega), hleft _ (by omega) (by omega), Nat.add_sub_cancel_left]

/-! ### One step -/

theorem topByte_xor (x y : Word) : topByte (x ^^^ y) = topByte x ^^^ topByte y := BitVec.extractLsb'_xor

/-- The entry that clears a word's upper byte is the one that RINV gives (R24, R101). -/
theorem topByte_xor_lut_eq_zero_iff {x : Word} {i : Byte} : topByte (x ^^^ lut i) = 0#8 ↔ i = rinv (topByte x) := by
  rw [topByte_xor, BitVec.xor_eq_zero_iff]
  exact ⟨fun h => by rw [h, rinv_topByte_lut], fun h => by rw [h, topByte_lut_rinv]⟩

/-- A byte makes the step use the index `i` exactly when it is the one that R102 chooses. -/
theorem stepIndex_eq_iff {a : Word} {b i : Byte} : lowByte a ^^^ b = i ↔ b = byteFor a i := by
  constructor <;> rintro rfl <;> rw [byteFor, ← BitVec.xor_assoc, BitVec.xor_self, BitVec.zero_xor]

/-- One step reaches `x` in `k + 1` upper bytes exactly when its byte is the one recovered from `x` (R101, R102) and the
state before it reaches what is left of `x` in `k` upper bytes. -/
theorem agreeTop_crcStep {k : Nat} (hk : k < 4) {a x : Word} {b : Byte} :
    AgreeTop (k + 1) (crcStep a b) x ↔
      b = byteFor a (rinv (topByte x)) ∧ AgreeTop k a (peel x (rinv (topByte x))) := by
  rw [crcStep_eq, agreeTop_xor_left, agreeTop_shiftRight hk, topByte_xor_lut_eq_zero_iff, ← stepIndex_eq_iff]
  exact and_congr_right fun hindex => by rw [hindex, peel]

/-! ### Four steps -/

/-- Four bytes force the target exactly when they are those of `binSolve`: four backward steps, of which the last leaves
nothing to ask of the start state (R100). -/
theorem crcAppend_four_eq_iff {S T : Word} {p0 p1 p2 p3 : Byte} :
    crcAppend S [p0, p1, p2, p3] = T ↔ [p0, p1, p2, p3] = (binSolve S T).toList := by
  simp only [crcAppend_cons, crcAppend_nil]
  rw [← agreeTop_four, agreeTop_crcStep (by decide), agreeTop_crcStep (by decide), agreeTop_crcStep (by decide),
    agreeTop_crcStep (by decide)]
  constructor
  · rintro ⟨rfl, rfl, rfl, rfl, -⟩
    rfl
  · intro h
    obtain ⟨rfl, rfl, rfl, rfl⟩ : p0 = _ ∧ p1 = _ ∧ p2 = _ ∧ p3 = _ := by
      simpa only [Quad.toList, List.cons.injEq, and_true] using h
    exact ⟨rfl, rfl, rfl, rfl, agreeTop_zero _ _⟩

/-- `binSolve` forces its target (R100, R102). -/
theorem crcAppend_binSolve (S T : Word) : crcAppend S (binSolve S T).toList = T := crcAppend_four_eq_iff.mpr rfl

/-- Settles O33: both halves are the one equivalence, for a list of four bytes written out. -/
theorem binaryPatchExistsAndIsUnique : Obligations.BinaryPatchExistsAndIsUnique := by
  refine fun S T => ⟨crcAppend_binSolve S T, fun P hlen hforces => ?_⟩
  obtain ⟨p0, p1, p2, p3, rfl⟩ := List.length_eq_four.mp hlen
  exact crcAppend_four_eq_iff.mp hforces

/-! ### SOLVEB -/

theorem exec_solveb (imm : Word) (s : State) :
    exec (.solveb imm) s = .next ((s.setPatch (patchOfQuad (binSolve s.acc imm)) 4#3).setErr .ok) := rfl

/-- What SOLVEB does to every state, with the patch described by what it forces (R104). -/
theorem exec_solveb_forces (imm : Word) (s : State) :
    ∃ p0 p1 p2 p3 : Byte, crcAppend s.acc [p0, p1, p2, p3] = imm ∧
      exec (.solveb imm) s = .next { s with patch := ⟨p0, p1, p2, p3, 0#8, 0#8⟩, plen := 4#3, err := 0#4 } :=
  ⟨_, _, _, _, crcAppend_binSolve s.acc imm, exec_solveb imm s⟩

/-- Settles O36: SOLVEB takes its whole operand and no N. -/
theorem solvebStoresTheForcingPatch : Obligations.SolvebStoresTheForcingPatch := by
  refine ⟨commandRule_of_exec (op := .solveb) (fun _ => BitVec.toNat_inj.symm) (fun _ _ => Iff.rfl)
    fun _ imm s _ _ => ?_, exec_solveb_forces⟩
  obtain ⟨p0, p1, p2, p3, hforces, hexec⟩ := exec_solveb_forces imm s
  exact ⟨_, hexec, p0, p1, p2, p3, hforces, rfl⟩

/-- Settles O38: of the state before it, only ACC stands in what SOLVEB writes. -/
theorem solvebDependsOnlyOnAccAndTarget : Obligations.SolvebDependsOnlyOnAccAndTarget := by
  intro T s s' t t' hacc h h'
  obtain rfl := Host.Outcome.next.inj ((exec_solveb T s).symm.trans h)
  obtain rfl := Host.Outcome.next.inj ((exec_solveb T s').symm.trans h')
  simp [hacc]

end Sys2Proof.Machine
end

section
/-! PROOFS. The alphabet commands (spec/42_printable_forcing.md R128 to R130). -/

namespace Sys2Proof.Machine

/-- An N that names an alphabet word loses nothing when it becomes the 3-bit operand (R62). -/
theorem toNat_setWidth_three {n : Byte} (hn : n.toNat ≤ 7) : (n.setWidth 3).toNat = n.toNat := by
  rw [BitVec.toNat_setWidth]
  exact Nat.mod_eq_of_lt (by omega)

/-! ### SETALPHA and GETALPHA -/

theorem exec_setalpha (n : BitVec 3) (imm : Word) (s : State) :
    exec (.setalpha n imm) s = .next { s with alpha := setAlphaWord s.alpha n imm, err := 0#4 } := rfl

/-- Settles O46: the decoder hands the number of an alphabet word on unchanged, and the bits are those of
`setAlphaWord_bit`. -/
theorem setalphaWritesOneWord : Obligations.SetalphaWritesOneWord := by
  refine ⟨commandRule_of_exec (op := .setalpha) (fun _ => Iff.rfl) (fun _ _ => Iff.rfl) fun n imm s hn _ =>
      ⟨_, exec_setalpha (n.setWidth 3) imm s, ?_, rfl⟩,
    fun n imm s => ⟨_, exec_setalpha n imm s, setAlphaWord_bit s.alpha n imm, rfl⟩⟩
  rw [← toNat_setWidth_three hn]
  exact setAlphaWord_bit s.alpha (n.setWidth 3) imm

theorem exec_getalpha (n : BitVec 3) (s : State) :
    exec (.getalpha n) s = .next { s with out := alphaWord s.alpha n, err := 0#4 } := rfl

/-- Settles O47: the decoder hands the number of an alphabet word on unchanged, and the bits are those of
`alphaWord_bit`. -/
theorem getalphaReadsOneWord : Obligations.GetalphaReadsOneWord := by
  refine ⟨commandRule_of_exec (op := .getalpha) (fun _ => Iff.rfl) (fun _ _ => BitVec.toNat_inj.symm)
      fun n _ s hn _ => ⟨_, exec_getalpha (n.setWidth 3) s, ?_, rfl⟩,
    fun n s => ⟨_, exec_getalpha n s, alphaWord_bit s.alpha n, rfl⟩⟩
  rw [← toNat_setWidth_three hn]
  exact alphaWord_bit s.alpha (n.setWidth 3)

/-! ### DEFALPHA -/

/-- The eight words of R26 put together: 95 ones above 32 zeros. -/
theorem defaultAlphabet_eq_shiftLeft : defaultAlphabet = (BitVec.allOnes 95).setWidth 256 <<< 32 := by decide

theorem getLsbD_defaultAlphabet {j : Nat} : defaultAlphabet.getLsbD j = true ↔ 0x20 ≤ j ∧ j ≤ 0x7E := by
  simp only [defaultAlphabet_eq_shiftLeft, BitVec.getLsbD_shiftLeft, BitVec.getLsbD_setWidth, BitVec.getLsbD_allOnes,
    Bool.and_eq_true, Bool.not_eq_true', decide_eq_true_eq, decide_eq_false_iff_not]
  omega

/-- The printable characters fill the interval from 0x20 to 0x7E, which holds 95 byte values. -/
theorem memberCount_defaultAlphabet : memberCount defaultAlphabet = 95 := by
  have hinterval : (Finset.univ.filter fun j : Fin 256 => defaultAlphabet.getLsbD j = true) = Finset.Icc 0x20 0x7E := by
    ext j
    simp only [Finset.mem_filter, Finset.mem_univ, true_and, Finset.mem_Icc, getLsbD_defaultAlphabet, Fin.le_def]
    rfl
  rw [memberCount, hinterval, Fin.card_Icc]
  rfl

theorem exec_defalpha (s : State) : exec .defalpha s = .next { s with alpha := defaultAlphabet, err := 0#4 } := rfl

/-- What DEFALPHA leaves in every state. -/
theorem exec_defalpha_printable (s : State) : ∃ t, exec .defalpha s = .next t ∧
    (∀ j, j < 256 → (t.alpha.getLsbD j = true ↔ 0x20 ≤ j ∧ j ≤ 0x7E)) ∧
    ((statusWord t).extractLsb' 16 9).toNat = 95 ∧ t = { s with alpha := t.alpha, err := 0#4 } :=
  ⟨_, exec_defalpha s, fun _ _ => getLsbD_defaultAlphabet,
    (statusWord_acount_toNat _).trans memberCount_defaultAlphabet, rfl⟩

/-- Settles O48: DEFALPHA has neither operand. -/
theorem defalphaLoadsPrintableAscii : Obligations.DefalphaLoadsPrintableAscii :=
  ⟨commandRule_of_exec (op := .defalpha) (fun _ => BitVec.toNat_inj.symm) (fun _ _ => BitVec.toNat_inj.symm)
      fun _ _ s _ _ => exec_defalpha_printable s,
    exec_defalpha_printable⟩

end Sys2Proof.Machine
end

section
/-! PROOFS. The printable search and the command SOLVEA (spec/42_printable_forcing.md R121 to R123, R127). The two nested
searches over the members are one search over the candidate numbers, so that the first candidate accepted is the one of
the least number. -/

namespace Sys2Proof.Machine

/-! ### Searches over numbers -/

/-- A search over the numbers below `m` answers at the least number that has an answer. -/
theorem findSome?_range_eq_some {β : Type} {f : Nat → Option β} {m : Nat} {b : β} :
    (List.range m).findSome? f = some b ↔ ∃ c, c < m ∧ f c = some b ∧ ∀ c' < c, f c' = none := by
  induction m with
  | zero => simp
  | succ m ih =>
    have hbefore : (List.range m).findSome? f = none ↔ ∀ c < m, f c = none := by simp
    rw [List.range_succ, List.findSome?_append, Option.or_eq_some_iff, ih, hbefore]
    simp only [List.findSome?_singleton, Nat.lt_succ_iff_lt_or_eq, or_and_right, exists_or, exists_eq_left, and_comm]

theorem findSome?_congr {α β : Type} {f g : α → Option β} {l : List α} (h : ∀ x ∈ l, f x = g x) :
    l.findSome? f = l.findSome? g := by
  induction l with
  | nil => rfl
  | cons x l ih =>
    rw [List.findSome?_cons, List.findSome?_cons, h x List.mem_cons_self,
      ih fun y hy => h y (List.mem_cons_of_mem x hy)]

/-- A search over a list is a search over its positions. -/
theorem findSome?_eq_range {α β : Type} (f : α → Option β) (L : List α) (a : α) :
    L.findSome? f = (List.range L.length).findSome? fun c => f (L.getD c a) := by
  have hpositions : (List.range L.length).map (L.getD · a) = L :=
    List.ext_getElem (by simp) fun i _ hi => by
      rw [List.getElem_map, List.getElem_range, List.getD_eq_getElem _ a hi]
  conv_lhs => rw [← hpositions, List.findSome?_map]
  rfl

/-- Two nested searches, the inner one over `L`, are one search over the pairs, numbered with the position in `L` varying
fastest. -/
theorem findSome?_findSome?_eq_range {α β γ : Type} (f : α → β → Option γ) (L : List α) (K : List β) (a : α) (b : β) :
    K.findSome? (fun y => L.findSome? fun x => f x y) =
      (List.range (L.length * K.length)).findSome? fun c => f (L.getD (c % L.length) a) (K.getD (c / L.length) b) := by
  induction K with
  | nil => rfl
  | cons y K ih =>
    have hfirst : L.findSome? (fun x => f x y) = (List.range L.length).findSome?
        fun c => f (L.getD (c % L.length) a) ((y :: K).getD (c / L.length) b) := by
      rw [findSome?_eq_range _ L a]
      refine findSome?_congr fun c hc => ?_
      have hlt : c < L.length := List.mem_range.mp hc
      rw [Nat.mod_eq_of_lt hlt, Nat.div_eq_of_lt hlt, List.getD_cons_zero]
    have hrest : K.findSome? (fun y => L.findSome? fun x => f x y) = (List.range (L.length * K.length)).findSome?
        fun c => f (L.getD ((L.length + c) % L.length) a) ((y :: K).getD ((L.length + c) / L.length) b) := by
      rw [ih]
      refine findSome?_congr fun c hc => ?_
      have hpos : 0 < L.length := Nat.pos_of_mul_pos_right (Nat.zero_lt_of_lt (List.mem_range.mp hc))
      rw [Nat.add_mod_left, Nat.add_div_left c hpos, List.getD_cons_succ]
    have hcons : (y :: K).findSome? (fun y => L.findSome? fun x => f x y) =
        (L.findSome? fun x => f x y).or (K.findSome? fun y => L.findSome? fun x => f x y) := by
      rw [← List.singleton_append, List.findSome?_append, List.findSome?_singleton]
    rw [hcons, hfirst, hrest, List.length_cons, Nat.mul_succ, Nat.add_comm, List.range_add, List.findSome?_append,
      List.findSome?_map]
    rfl

/-! ### The search by candidate numbers -/

/-- The answer of one numbered candidate (R121, R122). -/
def candidateAt (s t : Word) (A : Alphabet) (L : List Byte) (c : Nat) : Option Patch :=
  tryCandidate s t A (candidatePair L c).1 (candidatePair L c).2

/-- The model's search goes through the candidates by number, each once. -/
theorem firstCandidate_eq_range (s t : Word) (A : Alphabet) (L : List Byte) :
    firstCandidate s t A L = (List.range (L.length ^ 2)).findSome? (candidateAt s t A L) := by
  rw [Nat.pow_two]
  exact findSome?_findSome?_eq_range (tryCandidate s t A) L L 0#8 0#8

theorem quadIn_iff {A : Alphabet} {q : Quad} : quadIn A q = true ↔ ∀ b ∈ q.toList, InAlphabet A b := by
  simp [quadIn, Quad.toList, hasByte, InAlphabet, and_assoc]

theorem Patch.toList_inj {p p' : Patch} : p.toList = p'.toList ↔ p = p' := by
  cases p
  cases p'
  simp [Patch.toList]

/-- A numbered candidate's patch is its padding and its suffix, and it has one exactly when it is accepted. -/
theorem candidateAt_eq_some {s t : Word} {A : Alphabet} {L : List Byte} {c : Nat} {p : Patch} :
    candidateAt s t A L c = some p ↔ CandidateAccepted s t A (candidatePair L c) ∧
      p.toList = [(candidatePair L c).1, (candidatePair L c).2] ++ (candidateSuffix s t (candidatePair L c)).toList := by
  rw [candidateAt, tryCandidate_eq_some, quadIn_iff, ← Patch.toList_inj]
  rfl

theorem candidateAt_eq_none {s t : Word} {A : Alphabet} {L : List Byte} {c : Nat} :
    candidateAt s t A L c = none ↔ ¬ CandidateAccepted s t A (candidatePair L c) := by
  rw [candidateAt, tryCandidate_eq_none, ← Bool.not_eq_true, quadIn_iff]
  rfl

/-! ### The answers of the solver -/

/-- An alphabet has one list of its members in ascending order. -/
theorem ListsMembers.eq_members {A : Alphabet} {L : List Byte} (h : ListsMembers A L) : L = members A := by
  obtain ⟨hascending, hmem⟩ := h
  exact List.Pairwise.eq_of_mem_iff (r := fun a b : Byte => a < b) hascending (members_ascending A) fun b =>
    (hmem b).trans (mem_members A b).symm

theorem members_eq_nil {A : Alphabet} : members A = [] ↔ popcount A = 0 := by
  rw [← length_members, List.length_eq_zero_iff]

section Answers
variable {s t : Word} {A : Alphabet}

/-- The alphabet is checked before the search, but with no member the search would find nothing (R123). -/
theorem ascSolve_eq_ok {p : Patch} : ascSolve s t A = .ok p ↔ firstCandidate s t A (members A) = some p := by
  obtain ⟨hempty, hsolve⟩ | ⟨-, hfirst, hsolve⟩ | ⟨q, -, hfirst, hsolve⟩ := ascSolve_cases s t A
  · simp [hsolve, members_eq_nil.mpr hempty, firstCandidate]
  · simp [hsolve, hfirst]
  · simp [hsolve, hfirst]

theorem ascSolve_eq_noSolutionFound :
    ascSolve s t A = .noSolutionFound ↔ members A ≠ [] ∧ firstCandidate s t A (members A) = none := by
  rw [Ne, members_eq_nil]
  obtain ⟨hempty, hsolve⟩ | ⟨hne, hfirst, hsolve⟩ | ⟨q, hne, hfirst, hsolve⟩ := ascSolve_cases s t A
  · simp [hsolve, hempty]
  · simp [hsolve, hfirst, hne]
  · simp [hsolve, hfirst]

theorem ascSolve_eq_invalidAlphabet : ascSolve s t A = .invalidAlphabet ↔ members A = [] := by
  rw [members_eq_nil]
  obtain ⟨hempty, hsolve⟩ | ⟨hne, -, hsolve⟩ | ⟨q, hne, -, hsolve⟩ := ascSolve_cases s t A
  · simp [hsolve, hempty]
  · simp [hsolve, hne]
  · simp [hsolve, hne]

end Answers

/-- Settles O41: the list is the one the model searches, and the search over its candidate numbers ends at the least one
accepted. -/
theorem searchReturnsTheFirstCandidate : Obligations.SearchReturnsTheFirstCandidate := by
  intro S T A L hL
  obtain rfl := hL.eq_members
  refine ⟨fun p => ?_, ?_, ascSolve_eq_invalidAlphabet⟩
  · rw [ascSolve_eq_ok, firstCandidate_eq_range, findSome?_range_eq_some]
    simp only [candidateAt_eq_some, candidateAt_eq_none, and_assoc, and_comm]
  · rw [ascSolve_eq_noSolutionFound, firstCandidate_eq_range, List.findSome?_eq_none_iff]
    simp only [List.mem_range, candidateAt_eq_none]

/-! ### SOLVEA -/

/-- What SOLVEA does to every state, by the answer of the search (R127). -/
theorem exec_solvea_answers (imm : Word) (s : State) : ∃ t, exec (.solvea imm) s = .next t ∧
    ((∃ p, ascSolve s.acc imm s.alpha = .ok p ∧ t = { s with patch := p, plen := 6#3, err := 0#4 }) ∨
      (ascSolve s.acc imm s.alpha = .invalidAlphabet ∧ t = { s with patch := Patch.zero, plen := 0#3, err := 2#4 }) ∨
      (ascSolve s.acc imm s.alpha = .noSolutionFound ∧ t = { s with patch := Patch.zero, plen := 0#3, err := 1#4 })) := by
  refine ⟨finishSolve (ascSolve s.acc imm s.alpha) s, rfl, ?_⟩
  cases ascSolve s.acc imm s.alpha with
  | ok p => exact .inl ⟨p, rfl, rfl⟩
  | invalidAlphabet => exact .inr (.inl ⟨rfl, rfl⟩)
  | noSolutionFound => exact .inr (.inr ⟨rfl, rfl⟩)

/-- Settles O40: SOLVEA takes its whole operand and no N. -/
theorem solveaWritesWhatTheSearchAnswers : Obligations.SolveaWritesWhatTheSearchAnswers :=
  commandRule_of_exec (op := .solvea) (fun _ => BitVec.toNat_inj.symm) (fun _ _ => Iff.rfl)
    fun _ imm s _ _ => exec_solvea_answers imm s

end Sys2Proof.Machine
end

section
/-! PROOFS. A run of command words: what it observes, and that the steps of a port holding the same words follow it
(spec/43_interface.md R154, R155). -/

namespace Sys2Proof.Machine

/-! ### Issuing the words one after another -/

/-- A run issues its first word and goes on from there; OUT after the first word is observed if the word is a read. -/
theorem issueAll_cons_eq_next {w : Command} {ws : List Command} {s u : State} {obs : List Word} :
    issueAll (w :: ws) s = .next (obs, u) ↔ ∃ t later, issue w s = .next t ∧ issueAll ws t = .next (later, u) ∧
      obs = if isReadWord w then t.out :: later else later := by
  constructor
  · intro h
    obtain ⟨t, ht⟩ := issue_completes w s
    simp only [issueAll, ht] at h
    cases hrest : issueAll ws t with
    | next r =>
      simp only [hrest, Host.Outcome.next.injEq, Prod.mk.injEq] at h
      obtain ⟨rfl, rfl⟩ := h
      exact ⟨t, r.1, ht, hrest, rfl⟩
    | fault r | refused r => simp [hrest] at h
  · rintro ⟨t, later, ht, hrest, rfl⟩
    simp only [issueAll, ht, hrest]

theorem issueAll_completes (ws : List Command) (s : State) : ∃ obs u, issueAll ws s = .next (obs, u) := by
  induction ws generalizing s with
  | nil => exact ⟨[], s, rfl⟩
  | cons w ws ih =>
    obtain ⟨t, ht⟩ := issue_completes w s
    obtain ⟨later, u, hrest⟩ := ih t
    exact ⟨_, u, issueAll_cons_eq_next.mpr ⟨t, later, ht, hrest, rfl⟩⟩

/-- What a run answers is the observation and the final state that the relation of R154 allows. -/
theorem observes_of_issueAll {ws : List Command} {s u : State} {obs : List Word}
    (h : issueAll ws s = .next (obs, u)) : Observes ws s obs u := by
  induction ws generalizing s obs with
  | nil =>
    obtain ⟨rfl, rfl⟩ := Prod.mk.inj (Host.Outcome.next.inj h)
    exact .none _
  | cons w ws ih =>
    obtain ⟨t, later, ht, hrest, rfl⟩ := issueAll_cons_eq_next.mp h
    split_ifs with hread
    · exact .read ht ((isReadWord_iff w).mp hread) (ih hrest)
    · exact .quiet ht (fun hr => hread ((isReadWord_iff w).mpr hr)) (ih hrest)

/-- Settles O11: every run answers, and its answer is an observation in the sense of R154. -/
theorem runObservesOutAfterEachRead : Obligations.RunObservesOutAfterEachRead := by
  intro ws s
  obtain ⟨obs, u, h⟩ := issueAll_completes ws s
  exact ⟨obs, u, h, observes_of_issueAll h⟩

/-! ### The same words on the port -/

/-- A step with a word pending issues it and leaves the later actions pending. -/
theorem step_command {w : Command} {s t : State} (h : issue w s = .next t) (later : List HostAction) :
    step (s.setPort (.command w :: later)) = .next (t.setPort later) := by
  rw [step_action (State.setPort_port s _), perform_command]
  exact issue_setPort h later

/-- As many steps as words end where the run ends, by induction on the words: each step issues one of them (R46). -/
theorem run_commands {ws : List Command} {s u : State} {obs : List Word} (hport : s.port = [])
    (h : issueAll ws s = .next (obs, u)) : core.run ws.length (s.setPort (ws.map .command)) = .next u := by
  induction ws generalizing s obs with
  | nil =>
    obtain ⟨-, rfl⟩ := Prod.mk.inj (Host.Outcome.next.inj h)
    rw [List.map_nil, ← hport]
    rfl
  | cons w ws ih =>
    obtain ⟨t, later, ht, hrest, -⟩ := issueAll_cons_eq_next.mp h
    rw [List.length_cons, List.map_cons, run_succ (step_command ht _)]
    exact ih ((issue_port ht).trans hport) hrest

/-- Settles O10 for the run that starts with nothing else on the port. -/
theorem stepsFromThePortAreTheRun : Obligations.StepsFromThePortAreTheRun :=
  fun _ s _ _ h => run_commands (s := s.setPort []) rfl h

/-! ### What belongs to the host -/

/-- No effect of a command draws a reset value. -/
theorem Effect.resets_eq {i : Instr} {s t : State} (h : Effect i s t) : t.resets = s.resets := by
  cases h <;> rfl

theorem issue_resets {w : Command} {s t : State} (h : issue w s = .next t) : t.resets = s.resets := by
  obtain ⟨_, -, hx⟩ | ⟨_, -, rfl⟩ := issue_cases h
  · exact (exec_effect hx).resets_eq
  · rfl

/-- Settles O22 by the frames of the model's own two fields. -/
theorem commandsLeaveTheHostAlone : Obligations.CommandsLeaveTheHostAlone :=
  fun _ _ _ h => ⟨issue_port h, issue_resets h⟩

end Sys2Proof.Machine
end

section
/-! PROOFS. The interface commands (spec/43_interface.md R150 to R153). -/

namespace Sys2Proof.Machine

/-! ### NOP and GETSTAT -/

theorem exec_nop (s : State) : exec .nop s = .next s := rfl

/-- Settles O49: NOP has neither operand. -/
theorem nopChangesNothing : Obligations.NopChangesNothing :=
  ⟨commandRule_of_exec (op := .nop) (fun _ => BitVec.toNat_inj.symm) (fun _ _ => BitVec.toNat_inj.symm)
      fun _ _ s _ _ => ⟨s, exec_nop s, rfl⟩,
    exec_nop⟩

theorem exec_getstat (s : State) : exec .getstat s = .next { s with out := statusWord s } := rfl

/-- Settles O52: GETSTAT has neither operand. -/
theorem getstatReadsTheStatusWord : Obligations.GetstatReadsTheStatusWord :=
  ⟨commandRule_of_exec (op := .getstat) (fun _ => BitVec.toNat_inj.symm) (fun _ _ => BitVec.toNat_inj.symm)
      fun _ _ s _ _ => ⟨_, exec_getstat s, rfl⟩,
    exec_getstat⟩

/-! ### GETPATCH -/

/-- The bytes of a word, low byte first (R43). -/
def wordBytes (w : Word) : List Byte := (List.range 4).map (byteOf w)

theorem wordBytes_packWord (b0 b1 b2 b3 : Byte) : wordBytes (packWord b0 b1 b2 b3) = [b0, b1, b2, b3] := by
  simp [wordBytes, List.range_succ]

/-- The four patch bytes that GETPATCH's word `n` holds (R151). -/
theorem wordBytes_patchWord (p : Patch) (n : BitVec 1) :
    wordBytes (patchWord p n) = if n = 0#1 then [p.b0, p.b1, p.b2, p.b3] else [p.b4, p.b5, 0#8, 0#8] := by
  unfold patchWord
  split_ifs <;> exact wordBytes_packWord _ _ _ _

theorem packWord_zero : packWord 0#8 0#8 0#8 0#8 = 0#32 := by decide

theorem patchWord_zero (n : BitVec 1) : patchWord Patch.zero n = 0#32 := by
  unfold patchWord
  split_ifs <;> exact packWord_zero

/-- The upper word of a patch with no fifth and sixth byte. -/
theorem patchWord_one_eq_zero {p : Patch} (h4 : p.b4 = 0#8) (h5 : p.b5 = 0#8) : patchWord p 1#1 = 0#32 := by
  rw [patchWord, if_neg (by decide), h4, h5, packWord_zero]

/-- An N of 0 or 1 becomes the 1-bit operand without loss (R62). -/
theorem setWidth_one_eq_zero_iff {n : Byte} (hn : n.toNat ≤ 1) : n.setWidth 1 = 0#1 ↔ n = 0#8 := by
  rw [← BitVec.toNat_inj, ← BitVec.toNat_inj, BitVec.toNat_setWidth, Nat.mod_eq_of_lt (by omega)]
  rfl

theorem exec_getpatch (n : BitVec 1) (s : State) :
    exec (.getpatch n) s = .next { s with out := patchWord s.patch n, err := 0#4 } := rfl

/-- Settles O50: the decoder hands N on unchanged, the bytes are those of the packed word, and the register invariant
holds the bytes that the patch does not cover at 0 (R25). -/
theorem getpatchReadsThePackedBytes : Obligations.GetpatchReadsThePackedBytes := by
  refine ⟨commandRule_of_exec (op := .getpatch) (fun _ => Iff.rfl) (fun _ _ => BitVec.toNat_inj.symm)
      fun n _ s hn _ => ⟨_, exec_getpatch (n.setWidth 1) s, rfl, ?_⟩,
    fun n s => ⟨_, exec_getpatch n s, rfl, wordBytes_patchWord s.patch n⟩, fun n s hs hplen => ?_, fun s hs hplen => ?_⟩
  · simp only [← setWidth_one_eq_zero_iff hn]
    exact wordBytes_patchWord s.patch (n.setWidth 1)
  · have hpatch : s.patch = Patch.zero := hs.no_patch hplen
    rw [exec_getpatch, hpatch, patchWord_zero]
  · obtain ⟨h4, h5⟩ := hs.binary_patch hplen
    rw [exec_getpatch, patchWord_one_eq_zero h4 h5]

/-! ### APPLYP -/

theorem exec_applyp_no_patch {s : State} (h : s.plen = 0#3) : exec .applyp s = .next { s with err := 3#4 } := if_pos h

/-- With a patch stored, APPLYP is an append of its PLEN bytes (R153; log 11 on a PLEN that no run reaches). -/
theorem exec_applyp_patch {s : State} (h : s.plen ≠ 0#3) :
    exec .applyp s = .next { s with acc := crcAppend s.acc (s.patch.toList.take s.plen.toNat), err := 0#4 } :=
  if_neg h

/-- Settles O53: the two branches of APPLYP, which has neither operand, and the second one at PLEN 4 and 6. -/
theorem applypAppendsTheStoredPatch : Obligations.ApplypAppendsTheStoredPatch := by
  refine ⟨commandRule_of_exec (op := .applyp) (fun _ => BitVec.toNat_inj.symm) (fun _ _ => BitVec.toNat_inj.symm)
      fun _ _ s _ _ => ?_,
    fun s => ⟨exec_applyp_no_patch, exec_applyp_patch, fun h => ?_, fun h => ?_⟩⟩
  · by_cases h : s.plen = 0#3
    · exact ⟨_, exec_applyp_no_patch h, fun _ => rfl, fun hne => absurd h hne⟩
    · exact ⟨_, exec_applyp_patch h, fun heq => absurd heq h, fun _ => rfl⟩
  · rw [exec_applyp_patch (by simp [h]), h]
    rfl
  · rw [exec_applyp_patch (by simp [h]), h]
    rfl

end Sys2Proof.Machine
end

section
/-! PROOFS. The commands with no error of their own (spec/60_exceptions.md R174). -/

namespace Sys2Proof.Machine

/-- Well-formedness of an APPEND is its two bounds, in the form in which `exec_append_legal` asks for them. -/
theorem append_wf_iff (n : Byte) (imm : Word) :
    (Instr.append n imm).wf = true ↔ n.toNat ≤ 4 ∧ imm.toNat < 2 ^ (8 * n.toNat) := by
  rw [wf_iff, ← append_imm_check]
  exact and_congr_left' decide_eq_true_iff

/-- A command that writes ERR and has no error of its own writes OK: its operands passed the decoder's checks, APPEND's
own two among them, and it has no other failing branch (R174). -/
theorem exec_err_ok {i : Instr} (hwf : i.wf = true) (hsolvea : ∀ v, i ≠ .solvea v) (happlyp : i ≠ .applyp)
    (hnop : i ≠ .nop) (hstat : i ≠ .getstat) (s : State) : ∃ t, exec i s = .next t ∧ t.err = 0#4 := by
  cases i with
  | nop => exact absurd rfl hnop
  | getstat => exact absurd rfl hstat
  | solvea v => exact absurd rfl (hsolvea v)
  | applyp => exact absurd rfl happlyp
  | append n imm =>
    obtain ⟨hn, himm⟩ := (append_wf_iff n imm).mp hwf
    exact ⟨_, exec_append_legal hn himm s, rfl⟩
  | set imm => exact ⟨_, exec_set imm s, rfl⟩
  | getacc => exact ⟨_, exec_getacc s, rfl⟩
  | table n => exact ⟨_, exec_table n s, rfl⟩
  | solveb imm => exact ⟨_, exec_solveb imm s, rfl⟩
  | getpatch n => exact ⟨_, exec_getpatch n s, rfl⟩
  | setalpha n imm => exact ⟨_, exec_setalpha n imm s, rfl⟩
  | getalpha n => exact ⟨_, exec_getalpha n s, rfl⟩
  | defalpha => exact ⟨_, exec_defalpha s, rfl⟩

/-- Settles O25: NOP and GETSTAT do not write ERR, and the other nine commands of R174 write OK. -/
theorem commandsWithoutErrorsOfTheirOwn : Obligations.CommandsWithoutErrorsOfTheirOwn := by
  intro i s hwf hsolvea happlyp
  split_ifs with h
  · obtain rfl | rfl := h
    · exact ⟨s, exec_nop s, rfl⟩
    · exact ⟨_, exec_getstat s, rfl⟩
  · obtain ⟨hnop, hstat⟩ := not_or.mp h
    exact exec_err_ok hwf hsolvea happlyp hnop hstat s

end Sys2Proof.Machine
end

section
/-! PROOFS. The values that block reset leaves (spec/70_reset_and_hazards.md R190, R191). -/

namespace Sys2Proof.Machine

theorem popcount_defaultAlphabet : popcount defaultAlphabet = 95 :=
  (popcount_eq_memberCount _).trans memberCount_defaultAlphabet

/-- The status word is made of ALPHA, PLEN and ERR alone, so their reset values fix it (R29, R190). -/
theorem statusWord_of_reset_values {s : State} (hplen : s.plen = 0#3) (halpha : s.alpha = defaultAlphabet)
    (herr : s.err = 0#4) : statusWord s = 0x005F0000#32 := by
  have hpvalid : pvalid s = 0#1 := if_pos hplen
  rw [statusWord, hpvalid, hplen, halpha, herr, popcount_defaultAlphabet]
  rfl

/-- The values that R190 lists for block reset, in the order of that list; it lists none for ACC. -/
def HasResetValues (s : State) : Prop :=
  s.patch = ⟨0#8, 0#8, 0#8, 0#8, 0#8, 0#8⟩ ∧ s.plen = 0#3 ∧
    (∀ j, j < 256 → (s.alpha.getLsbD j = true ↔ 0x20 ≤ j ∧ j ≤ 0x7E)) ∧ s.err = 0#4 ∧ s.out = 0#32 ∧
    statusWord s = 0x005F0000#32

/-- Five registers decide whether a state holds the reset values: the status word and the members follow from them. -/
theorem hasResetValues_of_registers {s : State} (hpatch : s.patch = Patch.zero) (hplen : s.plen = 0#3)
    (halpha : s.alpha = defaultAlphabet) (herr : s.err = 0#4) (hout : s.out = 0#32) : HasResetValues s :=
  ⟨hpatch, hplen, fun _ _ => halpha ▸ getLsbD_defaultAlphabet, herr, hout,
    statusWord_of_reset_values hplen halpha herr⟩

theorem afterReset_hasResetValues (v : Word) : HasResetValues (State.afterReset v) :=
  hasResetValues_of_registers (State.afterReset_patch v) (State.afterReset_plen v) (State.afterReset_alpha v)
    (State.afterReset_err v) (State.afterReset_out v)

theorem blockReset_hasResetValues (s : State) : HasResetValues (blockReset s) :=
  hasResetValues_of_registers (blockReset_patch s) (blockReset_plen s) (blockReset_alpha s) (blockReset_err s)
    (blockReset_out s)

/-- A step with a reset pending is that reset, whichever command it cuts short (R191). -/
theorem step_reset {s : State} {c : Option Command} {rest : List HostAction} (h : s.port = .reset c :: rest) :
    step s = .next (blockReset (s.setPort rest)) := by
  rw [step_action h, perform_reset]

/-- Settles O14: the step is a block reset of the state with the later actions pending, and block reset keeps those and
sets every register but ACC to its listed value. -/
theorem blockResetLeavesTheResetState : Obligations.BlockResetLeavesTheResetState := by
  intro s c rest hport
  have hrest : (blockReset (s.setPort rest)).port = rest := by rw [blockReset_port, State.setPort_port]
  exact ⟨_, step_reset hport, hrest, blockReset_hasResetValues _⟩

/-- Settles O15: the machine's reset state is the one for the accumulator's first draw, and ACC is none of the
registers listed. -/
theorem resetStateHoldsTheListedValues : Obligations.ResetStateHoldsTheListedValues :=
  ⟨⟨_, State.reset_eq⟩, afterReset_hasResetValues⟩

end Sys2Proof.Machine
end

section
/-! PROOFS. The legal words against the rows of the opcode table, and the worked encodings (spec/30_encoding.md R63 to
R65 and section 7). -/

namespace Sys2Proof.Machine

/-! ### A word under a row's mask -/

/-- Two words are the same when their four fields are (R61). -/
theorem command_eq_iff {c d : Command} :
    c = d ↔ cmdOpc c = cmdOpc d ∧ cmdN c = cmdN d ∧ cmdRsv c = cmdRsv d ∧ cmdImm c = cmdImm d := by
  refine ⟨fun h => h ▸ ⟨rfl, rfl, rfl, rfl⟩, fun ⟨hopc, hn, hrsv, himm⟩ => ?_⟩
  rw [← mkCommand_fields c, ← mkCommand_fields d, hopc, hn, hrsv, himm]

/-- Masking a word masks each of its fields. -/
theorem and_command_eq_iff {c m w : Command} : c &&& m = w ↔ cmdOpc c &&& cmdOpc m = cmdOpc w ∧ cmdN c &&& cmdN m = cmdN w ∧
    cmdRsv c &&& cmdRsv m = cmdRsv w ∧ cmdImm c &&& cmdImm m = cmdImm w := by
  simp only [command_eq_iff, cmdOpc, cmdN, cmdRsv, cmdImm, BitVec.extractLsb'_and]

/-! ### What a row fixes -/

/-- Every row fixes the whole of OPC, to its opcode's number, and the whole of RSV, to 0; what it fixes of N and IMM it
fixes to 0 (spec/opcode_table.json). -/
theorem opcodeTable_fixed : ∀ r ∈ opcodeTable,
    (cmdOpc r.mask = 0xFF#8 ∧ cmdOpc r.word = r.op.value) ∧ (cmdRsv r.mask = 0xFFFF#16 ∧ cmdRsv r.word = 0#16) ∧
      cmdN r.word = 0#8 ∧ cmdImm r.word = 0#32 := by
  decide

/-- The bits of N that a row fixes say which N is legal, except for APPEND's bound, which its constraint gives (R64). -/
theorem opcodeTable_legalN : ∀ r ∈ opcodeTable, r.op ≠ .append →
    ∀ n, (n &&& cmdN r.mask = 0#8 ↔ legalN r.op n = true) := by
  decide +kernel

/-- The bits of IMM that a row fixes are the unused ones, except for APPEND's, which its constraint gives (R64). -/
theorem opcodeTable_unused : ∀ r ∈ opcodeTable, r.op ≠ .append → ∀ n, cmdImm r.mask = ~~~ immUsedMask r.op n := by
  decide +kernel

/-- APPEND's row fixes no bit of N and none of IMM. -/
theorem opcodeTable_append : ∀ r ∈ opcodeTable, r.op = .append → cmdN r.mask = 0#8 ∧ cmdImm r.mask = 0#32 := by decide

theorem constraint_of_ne_append {r : TableRow} (h : r.op ≠ .append) (c : Command) : r.constraint c = true := by
  unfold TableRow.constraint
  split <;> simp_all

theorem constraint_append_iff {r : TableRow} (h : r.op = .append) (c : Command) :
    r.constraint c = true ↔ legalN .append (cmdN c) = true ∧ cmdImm c &&& ~~~ immUsedMask .append (cmdN c) = 0#32 := by
  rw [TableRow.constraint, h, Bool.and_eq_true, append_imm_check, appendDataOk_iff]
  rfl

/-- A row's demands on N and IMM, by mask and by constraint, are checks 3 and 4 of its opcode (R64). -/
theorem row_operands_iff {r : TableRow} (hr : r ∈ opcodeTable) (c : Command) :
    ((cmdN c &&& cmdN r.mask = 0#8 ∧ cmdImm c &&& cmdImm r.mask = 0#32) ∧ r.constraint c = true) ↔
      legalN r.op (cmdN c) = true ∧ cmdImm c &&& ~~~ immUsedMask r.op (cmdN c) = 0#32 := by
  by_cases h : r.op = .append
  · obtain ⟨hn, himm⟩ := opcodeTable_append r hr h
    rw [constraint_append_iff h, hn, himm, h]
    simp
  · rw [opcodeTable_legalN r hr h, opcodeTable_unused r hr h (cmdN c)]
    simp [constraint_of_ne_append h]

/-- A row accepts a word exactly when the word has its opcode and passes the other three checks (R64, R65). -/
theorem accepts_iff {r : TableRow} (hr : r ∈ opcodeTable) {c : Command} :
    r.accepts c = true ↔ cmdOpc c = r.op.value ∧ cmdRsv c = 0#16 ∧ legalN r.op (cmdN c) = true ∧
      cmdImm c &&& ~~~ immUsedMask r.op (cmdN c) = 0#32 := by
  obtain ⟨⟨hopcMask, hopc⟩, ⟨hrsvMask, hrsv⟩, hn, himm⟩ := opcodeTable_fixed r hr
  have wholeOpc : cmdOpc c &&& 0xFF#8 = cmdOpc c := BitVec.and_allOnes
  have wholeRsv : cmdRsv c &&& 0xFFFF#16 = cmdRsv c := BitVec.and_allOnes
  rw [← row_operands_iff hr, TableRow.accepts, Bool.and_eq_true, decide_eq_true_iff, and_command_eq_iff, hopcMask, hopc,
    hrsvMask, hrsv, hn, himm, wholeOpc, wholeRsv]
  tauto

/-! ### One row for each opcode -/

theorem exists_row (op : Opcode) : ∃ r ∈ opcodeTable, r.op = op := by cases op <;> decide

theorem opcodeTable_op_inj : ∀ r ∈ opcodeTable, ∀ r' ∈ opcodeTable, r.op = r'.op → r = r' := by decide

theorem opcodeOf_eq_some {v : Byte} {op : Opcode} : opcodeOf v = some op ↔ v = op.value :=
  ⟨fun h => (value_of_opcodeOf h).symm, fun h => h ▸ opcodeOf_value op⟩

/-- A word decodes to a command exactly when a row accepts it and the command is built from its fields by that row's
opcode. -/
theorem decode_eq_ok_iff_row {c : Command} {i : Instr} : decode c = .ok i ↔
    ∃ r ∈ opcodeTable, r.accepts c = true ∧ i = buildInstr r.op (cmdN c) (cmdImm c) := by
  rw [decode_eq_ok]
  constructor
  · rintro ⟨op, hop, hrsv, hn, himm, rfl⟩
    obtain ⟨r, hr, rfl⟩ := exists_row op
    exact ⟨r, hr, (accepts_iff hr).mpr ⟨opcodeOf_eq_some.mp hop, hrsv, hn, himm⟩, rfl⟩
  · rintro ⟨r, hr, hacc, rfl⟩
    obtain ⟨hopc, hrsv, hn, himm⟩ := (accepts_iff hr).mp hacc
    exact ⟨r.op, opcodeOf_eq_some.mpr hopc, hrsv, hn, himm, rfl⟩

theorem accepts_unique {r r' : TableRow} (hr : r ∈ opcodeTable) (hr' : r' ∈ opcodeTable) {c : Command}
    (h : r.accepts c = true) (h' : r'.accepts c = true) : r = r' := by
  obtain ⟨hopc, -⟩ := (accepts_iff hr).mp h
  obtain ⟨hopc', -⟩ := (accepts_iff hr').mp h'
  exact opcodeTable_op_inj r hr r' hr' (opcode_value_inj (hopc.symm.trans hopc'))

/-- Settles O3: a row is the four checks of its opcode, and no two rows have the same opcode. -/
theorem legalWordsMatchExactlyOneTableRow : Obligations.LegalWordsMatchExactlyOneTableRow := by
  refine fun c => ⟨?_, fun i hd r' hr' hacc' => ?_, fun r hr r' hr' => accepts_unique hr hr'⟩
  · simp only [decode_eq_ok_iff_row]
    exact ⟨fun ⟨_, r, hr, hacc, _⟩ => ⟨r, hr, hacc⟩, fun ⟨r, hr, hacc⟩ => ⟨_, r, hr, hacc, rfl⟩⟩
  · obtain ⟨r, hr, hacc, rfl⟩ := decode_eq_ok_iff_row.mp hd
    rw [opcode_buildInstr, accepts_unique hr hr' hacc hacc']

/-! ### The worked encodings -/

/-- A word that a well-formed command encodes to decodes to that command. -/
theorem decode_of_encode {i : Instr} {c : Command} (hwf : i.wf = true) (h : encode i = c) : decode c = .ok i :=
  h ▸ decodeReadsBackEveryEncodedCommand i hwf

/-- Settles O5: each legal word is the encoding of its command, and each illegal one fails the check that section 7
names. -/
theorem workedEncodingsDecode : Obligations.WorkedEncodingsDecode := by
  refine ⟨decode_of_encode rfl rfl, decode_of_encode rfl rfl, decode_of_encode rfl rfl, decode_of_encode rfl rfl,
    decode_of_encode rfl rfl, decode_of_encode rfl rfl, decode_of_encode rfl rfl, decode_of_encode rfl rfl,
    decode_of_encode rfl rfl, decode_of_encode rfl rfl, decode_of_encode rfl rfl, decode_of_encode rfl rfl,
    decode_of_encode rfl rfl, decode_of_encode rfl rfl, decode_of_encode rfl rfl, decode_of_encode rfl rfl, fun s => ?_⟩
  exact ⟨issue_error (e := .illegalOpcode 0x0D#8) rfl s, issue_error (e := .illegalOperand 5#8) rfl s,
    issue_error (e := .reservedImm 0x100#32) rfl s, issue_error (e := .reservedRsv 1#16) rfl s⟩

/-! ### Nothing issued -/

/-- Settles O9: with an empty port there is no action to take. -/
theorem blockWaitsUnchangedForTheHost : Obligations.BlockWaitsUnchangedForTheHost := by
  intro s hport
  rw [step, takeAction_eq_none.mpr hport]

end Sys2Proof.Machine
end

section
/-! PROOFS. The laws of the update that the spec derives (spec/40_crc_engine.md section 3): the table step is polynomial
division bit by bit, from which it is linear and loses nothing. -/

namespace Sys2Proof.Machine

/-! ### Repeated single-bit division -/

theorem genStep_iterate_xor (n : Nat) (x y : Word) : genStep^[n] (x ^^^ y) = genStep^[n] x ^^^ genStep^[n] y := by
  simpa only [iterate_eq] using iterate_xor genStep genStep_xor n x y

/-- While the bits that leave are 0, division only shifts. -/
theorem genStep_iterate_of_low_zero {n : Nat} {x : Word} (h : ∀ j < n, x.getLsbD j = false) :
    genStep^[n] x = x >>> n := by
  induction n generalizing x with
  | zero => simp
  | succ n ih =>
    have hstep : genStep x = x >>> 1 := if_neg (by rw [h 0 (by omega)]; decide)
    have hlow : ∀ j < n, (x >>> 1).getLsbD j = false := fun j hj => by
      rw [BitVec.getLsbD_ushiftRight]
      exact h (1 + j) (by omega)
    rw [Function.iterate_succ_apply, hstep, ih hlow, ← BitVec.shiftRight_add, Nat.add_comm]

/-- Only the zero word is divided to zero: the polynomial's upper bit is set, where a shifted word has a 0. -/
theorem genStep_eq_zero {x : Word} (h : genStep x = 0#32) : x = 0#32 := by
  unfold genStep at h
  split_ifs at h with hbit
  · have hshift : x >>> 1 = Config.polynomial := BitVec.xor_eq_zero_iff.mp h
    have hupper : (x >>> 1).getLsbD 31 = false := by
      rw [BitVec.getLsbD_ushiftRight, BitVec.getLsbD_of_ge x _ (by omega)]
    rw [hshift] at hupper
    exact absurd hupper (by decide)
  · refine BitVec.eq_of_getLsbD_eq fun j _ => ?_
    cases j with
    | zero => simpa using hbit
    | succ j => rw [Nat.add_comm, ← BitVec.getLsbD_ushiftRight, h, BitVec.getLsbD_zero, BitVec.getLsbD_zero]

theorem genStep_injective : Function.Injective genStep := fun x y h =>
  BitVec.xor_eq_zero_iff.mp (genStep_eq_zero (by rw [genStep_xor, h, BitVec.xor_self]))

/-! ### The table step -/

theorem lowByte_xor_upper (x : Word) : (lowByte x).setWidth 32 ^^^ (x >>> 8 <<< 8) = x := by
  refine BitVec.eq_of_getLsbD_eq fun j hj => ?_
  by_cases hlow : j < 8
  · simp [lowByte, hj, hlow]
  · simp [lowByte, hj, hlow, Nat.add_sub_cancel' (Nat.not_lt.mp hlow)]

/-- Eight divisions of a word: the table's entry for its low byte, XOR the upper bytes moved down (R23, R80). -/
theorem genStep_iterate_eight (x : Word) : genStep^[8] x = lut (lowByte x) ^^^ (x >>> 8) := by
  have hupper : genStep^[8] (x >>> 8 <<< 8) = x >>> 8 := by
    rw [genStep_iterate_of_low_zero (by simp +contextual)]
    refine BitVec.eq_of_getLsbD_eq fun j _ => ?_
    by_cases hj : 8 + j < 32
    · simp [hj]
    · simp [BitVec.getLsbD_of_ge x (8 + j) (by omega)]
  calc genStep^[8] x
      = genStep^[8] ((lowByte x).setWidth 32 ^^^ (x >>> 8 <<< 8)) := by rw [lowByte_xor_upper]
    _ = lut (lowByte x) ^^^ (x >>> 8) := by rw [genStep_iterate_xor, ← lut_eq_genStep, hupper]

/-- A byte XORed into a word leaves no trace above the low byte. -/
theorem xor_byte_shiftRight (a : Word) (b : Byte) : (a ^^^ b.setWidth 32) >>> 8 = a >>> 8 := by
  have hbyte : b.setWidth 32 >>> 8 = 0#32 := by
    refine BitVec.eq_of_getLsbD_eq fun j _ => ?_
    simp
  rw [BitVec.ushiftRight_xor_distrib, hbyte, BitVec.xor_zero]

theorem crcStep_eq_genStep (a : Word) (b : Byte) : crcStep a b = genStep^[8] (a ^^^ b.setWidth 32) := by
  rw [genStep_iterate_eight, xor_byte_shiftRight, crcStep]

/-- Settles O30: the low byte goes through the table, which is eight divisions, and the upper bytes are shifted down
undivided. -/
theorem tableUpdateIsBitSerialDivision : Obligations.TableUpdateIsBitSerialDivision := crcStep_eq_genStep

/-! ### Linearity -/

theorem lut_xor (x y : Byte) : lut (x ^^^ y) = lut x ^^^ lut y := by
  rw [lut_eq_genStep, BitVec.setWidth_xor, genStep_iterate_xor, ← lut_eq_genStep, ← lut_eq_genStep]

theorem crcStep_xor (a a' : Word) (b b' : Byte) : crcStep (a ^^^ a') (b ^^^ b') = crcStep a b ^^^ crcStep a' b' := by
  simp only [crcStep_eq_genStep, ← genStep_iterate_xor, BitVec.setWidth_xor]
  congr 1
  ac_rfl

/-- Bytes appended to a XOR of two states may be appended to one of them, with zero bytes to the other. -/
theorem crcAppend_xor (a a' : Word) (bs : List Byte) :
    crcAppend (a ^^^ a') bs = crcAppend a (List.replicate bs.length 0#8) ^^^ crcAppend a' bs := by
  induction bs generalizing a a' with
  | nil => rfl
  | cons b bs ih =>
    have hstep : crcStep (a ^^^ a') b = crcStep a 0#8 ^^^ crcStep a' b := by rw [← crcStep_xor, BitVec.zero_xor]
    rw [List.length_cons, List.replicate_succ, crcAppend_cons, crcAppend_cons, crcAppend_cons, hstep, ih]

/-- The affine split: what the state contributes, XOR what the bytes contribute (R85). -/
theorem crcAppend_split (a : Word) (bs : List Byte) :
    crcAppend a bs = crcAppend a (List.replicate bs.length 0#8) ^^^ crcAppend 0#32 bs := by
  rw [← crcAppend_xor, BitVec.xor_zero]

/-- Settles O31: concatenation by the definition, the other two from the linearity of the single-bit division. -/
theorem crcUpdateIsAffine : Obligations.CrcUpdateIsAffine := ⟨crcAppend_append, lut_xor, crcAppend_split⟩

/-! ### Nothing is lost -/

theorem crcStep_injective (b : Byte) : Function.Injective (crcStep · b) := fun a a' h => by
  simp only [crcStep_eq_genStep] at h
  exact (BitVec.xor_left_inj _).mp (genStep_injective.iterate 8 h)

/-- The same bytes take different states to different states. -/
theorem crcAppend_injective (bs : List Byte) : Function.Injective (crcAppend · bs) := by
  induction bs with
  | nil => exact fun _ _ h => h
  | cons b bs ih => exact ih.comp (crcStep_injective b)

theorem Quad.toList_inj {q q' : Quad} : q.toList = q'.toList ↔ q = q' := by
  cases q
  cases q'
  simp [Quad.toList]

/-- Four bytes force the target exactly when they are those of `binSolve`, as a quad (R100). -/
theorem crcAppend_quad_eq_iff {S T : Word} {q : Quad} : crcAppend S q.toList = T ↔ q = binSolve S T :=
  crcAppend_four_eq_iff.trans Quad.toList_inj

theorem crcAppend_quad_bijective (S : Word) : Function.Bijective fun q : Quad => crcAppend S q.toList :=
  (Function.bijective_iff_existsUnique _).mpr fun T =>
    ⟨binSolve S T, crcAppend_binSolve S T, fun _ h => crcAppend_quad_eq_iff.mp h⟩

/-- Settles O32: the affine split, whose state part is one-to-one on the finitely many states, and whose byte part is a
bijection because every target has exactly one patch. -/
theorem fourBytesMixTheWholeAccumulator : Obligations.FourBytesMixTheWholeAccumulator :=
  ⟨(crcAppend · (List.replicate 4 0#8)), fun q => crcAppend 0#32 q.toList,
    Finite.injective_iff_bijective.mp (crcAppend_injective _), crcAppend_quad_bijective 0#32,
    fun a q => crcAppend_split a q.toList⟩

end Sys2Proof.Machine
end

section
/-! PROOFS. What the spec derives of the inverter (spec/41_binary_forcing.md section 2). -/

namespace Sys2Proof.Machine

/-- Settles O34: after four steps from 0 that use the recovered indices, all that stands in the accumulator is the four
table entries, each moved down by the steps after its own; and the target stands in it. -/
theorem binaryIndicesRebuildTheTarget : Obligations.BinaryIndicesRebuildTheTarget := by
  intro T
  have hforces : crcAppend 0#32 (bytesFor 0#32 (binIndices T)).toList = T := crcAppend_binSolve 0#32 T
  rw [crcAppend_bytesFor] at hforces
  simpa [BitVec.ushiftRight_xor_distrib, ← BitVec.shiftRight_add, ← BitVec.xor_assoc] using hforces

/-- Settles O35: by the affine split the patch contributes to the target what the state does not, and the patch that
forces this from 0 is unique. -/
theorem sourceMethodGivesTheSamePatch : Obligations.SourceMethodGivesTheSamePatch := by
  intro S T
  refine crcAppend_quad_eq_iff.mp ?_
  have hsplit : T = crcAppend S [0#8, 0#8, 0#8, 0#8] ^^^ crcAppend 0#32 (binSolve S T).toList :=
    (crcAppend_binSolve S T).symm.trans (crcAppend_split S _)
  calc crcAppend 0#32 (binSolve S T).toList
      = crcAppend S [0#8, 0#8, 0#8, 0#8] ^^^ crcAppend 0#32 (binSolve S T).toList ^^^
          crcAppend S [0#8, 0#8, 0#8, 0#8] := by
        rw [BitVec.xor_comm (crcAppend S _), BitVec.xor_assoc, BitVec.xor_self, BitVec.xor_zero]
    _ = T ^^^ crcAppend S [0#8, 0#8, 0#8, 0#8] := by rw [← hsplit]

end Sys2Proof.Machine
end

section
/-! PROOFS. The printable search finds a patch exactly when there is one, and how large an alphabet that takes
(spec/42_printable_forcing.md sections 1 and 2). -/

namespace Sys2Proof.Machine

section Search
variable {s t : Word} {A : Alphabet}

theorem mem_members_iff {b : Byte} : b ∈ members A ↔ InAlphabet A b := mem_members A b

theorem listsMembers_members (A : Alphabet) : ListsMembers A (members A) := ⟨members_ascending A, mem_members A⟩

/-! ### Soundness -/

theorem tryCandidate_forces {p0 p1 : Byte} {p : Patch} (h0 : p0 ∈ members A) (h1 : p1 ∈ members A)
    (h : tryCandidate s t A p0 p1 = some p) : ForcesWithin s t A p.toList := by
  obtain ⟨hin, rfl⟩ := tryCandidate_eq_some.mp h
  refine ⟨rfl, fun b hb => ?_, ?_⟩
  · obtain rfl | rfl | hb : b = p0 ∨ b = p1 ∨ b ∈ (binSolve (crcAppend s [p0, p1]) t).toList := by
      simpa only [Patch.toList, Quad.toList, List.mem_cons] using hb
    · exact mem_members_iff.mp h0
    · exact mem_members_iff.mp h1
    · exact quadIn_iff.mp hin b hb
  · exact crcAppend_binSolve (crcAppend s [p0, p1]) t

/-- A patch that the search answers is six bytes of the alphabet that force the target (R120). -/
theorem forcesWithin_of_ascSolve {p : Patch} (h : ascSolve s t A = .ok p) : ForcesWithin s t A p.toList := by
  obtain ⟨p1, h1, p0, h0, hp⟩ := firstCandidate_some (ascSolve_eq_ok.mp h)
  exact tryCandidate_forces h0 h1 hp

/-! ### Completeness -/

/-- Of a sequence that forces the target the first two bytes are a candidate, and the others can only be the suffix
that is derived for it: so this candidate is accepted (R121). -/
theorem exists_accepted_of_forcesWithin {bs : List Byte} (h : ForcesWithin s t A bs) :
    ∃ p0 ∈ members A, ∃ p1 ∈ members A, tryCandidate s t A p0 p1 ≠ none := by
  obtain ⟨hlen, hin, hforces⟩ := h
  obtain ⟨p0, p1, q0, q1, q2, q3, rfl⟩ : ∃ p0 p1 q0 q1 q2 q3, bs = [p0, p1, q0, q1, q2, q3] := by
    match bs, hlen with
    | [p0, p1, q0, q1, q2, q3], _ => exact ⟨p0, p1, q0, q1, q2, q3, rfl⟩
  have hsuffix : [q0, q1, q2, q3] = (binSolve (crcAppend s [p0, p1]) t).toList := crcAppend_four_eq_iff.mp hforces
  have haccepted : quadIn A (binSolve (crcAppend s [p0, p1]) t) = true :=
    quadIn_iff.mpr fun b hb => hin b (List.mem_cons_of_mem _ (List.mem_cons_of_mem _ (hsuffix ▸ hb)))
  refine ⟨p0, mem_members_iff.mpr (hin p0 (by simp)), p1, mem_members_iff.mpr (hin p1 (by simp)), fun hnone => ?_⟩
  exact absurd (haccepted.symm.trans (tryCandidate_eq_none.mp hnone)) (by decide)

theorem exists_ascSolve_of_forcesWithin {bs : List Byte} (h : ForcesWithin s t A bs) : ∃ p, ascSolve s t A = .ok p := by
  obtain ⟨p0, h0, p1, h1, haccepted⟩ := exists_accepted_of_forcesWithin h
  obtain ⟨p, hp⟩ := Option.ne_none_iff_exists'.mp fun hnone =>
    haccepted (firstCandidate_eq_none.mp hnone p1 h1 p0 h0)
  exact ⟨p, ascSolve_eq_ok.mpr hp⟩

/-! ### The alphabet's size -/

theorem members_eq_nil_iff_memberCount : members A = [] ↔ memberCount A = 0 := by
  rw [members_eq_nil, popcount_eq_memberCount]

/-- In ascending order byte 0 comes first, if it is a member. -/
theorem members_getD_zero (h : InAlphabet A 0#8) : (members A).getD 0 0#8 = 0#8 := by
  have hzero : 0#8 ∈ members A := mem_members_iff.mpr h
  have hascending := members_ascending A
  cases hL : members A with
  | nil => rfl
  | cons b L =>
    rw [hL] at hzero hascending
    obtain rfl | hlater := List.mem_cons.mp hzero
    · rfl
    · exact absurd (List.rel_of_pairwise_cons hascending hlater) (by simp)

end Search

/-! ### SOLVEA -/

theorem exec_solvea (imm : Word) (s : State) :
    exec (.solvea imm) s = .next (finishSolve (ascSolve s.acc imm s.alpha) s) := rfl

/-- Settles O39: the empty alphabet has its own answer; otherwise a patch that the search answers forces the target, and
if any sequence does, the search answers a patch. -/
theorem solveaFindsAPatchExactlyWhenOneExists : Obligations.SolveaFindsAPatchExactlyWhenOneExists := by
  refine fun T s => ⟨fun hempty => ?_, fun hne hnone => ?_, fun ⟨bs, hbs⟩ => ?_⟩
  · rw [exec_solvea, ascSolve_eq_invalidAlphabet.mpr (members_eq_nil_iff_memberCount.mpr hempty)]
    rfl
  · rw [exec_solvea]
    cases hanswer : ascSolve s.acc T s.alpha with
    | ok p => exact absurd ⟨p.toList, forcesWithin_of_ascSolve hanswer⟩ hnone
    | invalidAlphabet =>
      exact absurd (members_eq_nil_iff_memberCount.mp (ascSolve_eq_invalidAlphabet.mp hanswer)) hne
    | noSolutionFound => rfl
  · obtain ⟨p, hp⟩ := exists_ascSolve_of_forcesWithin hbs
    exact ⟨p, forcesWithin_of_ascSolve hp, by rw [exec_solvea, hp]; rfl⟩

/-! ### A large and a small alphabet -/

theorem candidatePair_zero {A : Alphabet} (h : InAlphabet A 0#8) : candidatePair (members A) 0 = (0#8, 0#8) := by
  rw [candidatePair, Nat.zero_mod, Nat.zero_div, members_getD_zero h]

theorem exists_patch_toList (p0 p1 : Byte) (q : Quad) :
    ∃ p : Patch, p.b0 = p0 ∧ p.b1 = p1 ∧ p.toList = [p0, p1] ++ q.toList :=
  ⟨⟨p0, p1, q.b0, q.b1, q.b2, q.b3⟩, rfl, rfl, rfl⟩

/-- Settles O42: candidate number 0 is the padding 00 00, and no suffix leaves the full alphabet. -/
theorem fullAlphabetSucceedsAtTheFirstCandidate : Obligations.FullAlphabetSucceedsAtTheFirstCandidate := by
  intro S T A hfull
  have hpos : 0 < (members A).length ^ 2 := Nat.pow_pos (List.length_pos_of_mem (mem_members_iff.mpr (hfull 0#8)))
  obtain ⟨hok, -, -⟩ := searchReturnsTheFirstCandidate S T A (members A) (listsMembers_members A)
  obtain ⟨p, h0, h1, hlist⟩ := exists_patch_toList 0#8 0#8 (candidateSuffix S T (0#8, 0#8))
  refine ⟨p, (hok p).mpr ⟨0, hpos, fun b _ => hfull b, by simp, ?_⟩, h0, h1⟩
  rw [candidatePair_zero (hfull 0#8)]
  exact hlist

/-- The state after six members, in the order given. -/
def afterSixMembers (S : Word) (A : Alphabet) (v : List.Vector (members A).toFinset 6) : Word :=
  crcAppend S (v.toList.map Subtype.val)

/-- Every target that some six bytes of the alphabet force is among these states. -/
theorem exists_afterSixMembers {S T : Word} {A : Alphabet} {bs : List Byte} (h : ForcesWithin S T A bs) :
    ∃ v, afterSixMembers S A v = T := by
  obtain ⟨hlen, hin, hforces⟩ := h
  have hmem : ∀ b ∈ bs, b ∈ (members A).toFinset := fun b hb =>
    List.mem_toFinset.mpr (mem_members_iff.mpr (hin b hb))
  refine ⟨⟨bs.pmap Subtype.mk hmem, by rw [List.length_pmap, hlen]⟩, ?_⟩
  have hbytes : (bs.pmap Subtype.mk hmem).map Subtype.val = bs := by simp [List.map_pmap]
  exact (congrArg (crcAppend S) hbytes).trans hforces

theorem card_word : Fintype.card Word = 2 ^ 32 := by rw [← FinEnum.card_eq_fintypeCard, FinEnum.card_bitVec]

theorem card_members_le (A : Alphabet) : Fintype.card (members A).toFinset ≤ memberCount A := by
  rw [Fintype.card_coe, ← popcount_eq_memberCount, ← length_members]
  exact List.toFinset_card_le _

/-- There are at most 40^6 six-byte sequences over 40 members, which is less than 2^32. -/
theorem not_surjective_afterSixMembers (S : Word) {A : Alphabet} (h : memberCount A ≤ 40) :
    ¬ Function.Surjective (afterSixMembers S A) := by
  intro hsurj
  have hcard : 2 ^ 32 ≤ 40 ^ 6 :=
    calc 2 ^ 32
        = Fintype.card Word := card_word.symm
      _ ≤ Fintype.card (List.Vector (members A).toFinset 6) := Fintype.card_le_of_surjective _ hsurj
      _ = Fintype.card (members A).toFinset ^ 6 := card_vector 6
      _ ≤ 40 ^ 6 := Nat.pow_le_pow_left ((card_members_le A).trans h) 6
  exact absurd hcard (by decide)

/-- Settles O43: the search answers only patches that force the target, and there are too few six-byte sequences of
members for every target to have one. -/
theorem smallAlphabetMissesSomeTarget : Obligations.SmallAlphabetMissesSomeTarget := by
  intro S A hsmall
  obtain ⟨T, hmissed⟩ := not_forall.mp (not_surjective_afterSixMembers S hsmall)
  exact ⟨T, fun p hp => hmissed (exists_afterSixMembers (forcesWithin_of_ascSolve hp))⟩

end Sys2Proof.Machine
end

section
/-! PROOFS. A patch that a solver stored, when APPLYP appends it: the round trips (spec/41_binary_forcing.md section 3,
spec/42_printable_forcing.md section 3) and the stale patch (spec/70_reset_and_hazards.md section 3). -/

namespace Sys2Proof.Machine

/-- The stored patch forces `T` from the accumulator `a`: it has bytes, and they take `a` to `T`. -/
structure PatchForces (a T : Word) (p : Patch) (n : BitVec 3) : Prop where
  stored : n ≠ 0#3
  forces : crcAppend a (p.toList.take n.toNat) = T

theorem exec_solveb_patchForces {T : Word} {s s1 : State} (h : exec (.solveb T) s = .next s1) :
    PatchForces s1.acc T s1.patch s1.plen := by
  obtain rfl := Host.Outcome.next.inj ((exec_solveb T s).symm.trans h)
  exact ⟨by simp, crcAppend_binSolve s.acc T⟩

/-- A SOLVEA either stores six members that force its target, with OK, or leaves no patch and an error (R127, R173). -/
theorem exec_solvea_cases {T : Word} {s s1 : State} (h : exec (.solvea T) s = .next s1) :
    (PatchForces s1.acc T s1.patch s1.plen ∧ s1.plen = 6#3 ∧ ∀ b ∈ s1.patch.toList, InAlphabet s.alpha b) ∨
      (s1.plen = 0#3 ∧ s1.err ≠ 0#4) := by
  obtain ⟨t, hexec, hanswer⟩ := exec_solvea_answers T s
  obtain rfl := Host.Outcome.next.inj (hexec.symm.trans h)
  obtain ⟨p, hp, rfl⟩ | ⟨-, rfl⟩ | ⟨-, rfl⟩ := hanswer
  · obtain ⟨-, hin, hforces⟩ := forcesWithin_of_ascSolve hp
    exact .inl ⟨⟨by simp, hforces⟩, rfl, hin⟩
  · exact .inr ⟨rfl, by simp⟩
  · exact .inr ⟨rfl, by simp⟩

/-- APPLYP in a state whose ACC the stored patch was made for. -/
theorem PatchForces.exec_applyp {T : Word} {u : State} (h : PatchForces u.acc T u.patch u.plen) :
    exec .applyp u = .next { u with acc := T, err := 0#4 } := by
  rw [exec_applyp_patch h.stored, h.forces]

/-- APPLYP in a state with another ACC: the same bytes take different states to different states. -/
theorem PatchForces.exec_applyp_ne {a T : Word} {u t : State} (h : PatchForces a T u.patch u.plen) (hne : u.acc ≠ a)
    (ht : exec .applyp u = .next t) : t.acc ≠ T := by
  obtain rfl := Host.Outcome.next.inj ((exec_applyp_patch h.stored).symm.trans ht)
  intro heq
  exact hne (crcAppend_injective _ (heq.trans h.forces.symm))

/-- Settles O37: APPLYP reads no register but the three that are as SOLVEB left them. -/
theorem binaryRoundTripReachesTheTarget : Obligations.BinaryRoundTripReachesTheTarget := by
  intro T s
  refine ⟨_, exec_solveb T s, fun u hacc hpatch hplen => PatchForces.exec_applyp ?_⟩
  rw [hacc, hpatch, hplen]
  exact exec_solveb_patchForces (exec_solveb T s)

/-- Settles O44: OK rules out the two failed ends of SOLVEA. -/
theorem printableRoundTripReachesTheTarget : Obligations.PrintableRoundTripReachesTheTarget := by
  intro T s s1 u h herr hacc hpatch hplen
  obtain ⟨hforces, hsix, hin⟩ | ⟨-, hfailed⟩ := exec_solvea_cases h
  · rw [← hacc, ← hpatch, ← hplen] at hforces
    exact ⟨hforces.exec_applyp, hplen.trans hsix, hpatch ▸ hin⟩
  · exact absurd herr hfailed

/-- Settles O45: whichever solver stored the patch, it forces the target from the ACC that the solver left. -/
theorem stalePatchMissesTheTarget : Obligations.StalePatchMissesTheTarget := by
  intro T s s1 u t i hi h hstored hpatch hplen hacc ht
  have hforces : PatchForces s1.acc T s1.patch s1.plen := by
    obtain rfl | rfl := hi
    · exact exec_solveb_patchForces h
    · obtain ⟨hforces, -, -⟩ | ⟨hnone, -⟩ := exec_solvea_cases h
      · exact hforces
      · exact absurd hnone hstored
  rw [← hpatch, ← hplen] at hforces
  exact hforces.exec_applyp_ne hacc ht

end Sys2Proof.Machine
end
